-- ==== Sys2Proof/Word.lean ====
section
/-! DEFINITION. The bit-vector types of the block (00_scope.md R8, R9, R12, R14; 30_encoding.md R80). Every value is
unsigned (R12). -/

namespace Sys2Proof

/-- A byte lane of the bus (20_memory.md R62). -/
abbrev Byte := BitVec 8

/-- A 32-bit register of the window, or a 32-bit command word (10_state.md R22, 30_encoding.md R80). -/
abbrev Word := BitVec 32

/-- A 16-bit RGB565 pixel (00_scope.md R14). -/
abbrev Pixel := BitVec 16

/-- A coarse bucket key, 0..63 (00_scope.md R15). -/
abbrev CoarseKey := BitVec 6

/-- A fine bucket key, 0..4095 (00_scope.md R15). -/
abbrev FineKey := BitVec 12

/-- A selected bucket's rank, 0..127 (00_scope.md R17). -/
abbrev Rank := BitVec 7

/-- A bucket's pixel count: `CNT_W` = 32 bits (00_scope.md R9). -/
abbrev Count := BitVec 32

/-- A bucket's channel sum: `SUM_W` = 38 bits (00_scope.md R9). -/
abbrev Sum := BitVec 38

end Sys2Proof
end

