-- ==== Sys2Proof/Config.lean ====
section
/-! DEFINITION. What the platform fixes (the open parameters `PAL_W` and `BASE`, 00_scope.md R10 and R11) and the
values the spec leaves unspecified (93_implementation_defined.md section 2), each an opaque constant without a body, so
that no proof can see a value of it. -/

namespace Sys2Proof

/-- `PAL_W`, the palette entry width in bits, with its range 3..32 (00_scope.md R10). -/
structure PalW where
  bits : Nat
  three_le : 3 ≤ bits
  le_thirtyTwo : bits ≤ 32
deriving DecidableEq, Repr

/-- The open parameters that the model takes as an argument (00_scope.md R10, R11). `BASE` is held as the number of its
64-byte block, so it is a multiple of 64 by construction. -/
structure Params where
  palW : PalW
  baseBlock : Nat
deriving DecidableEq, Repr

namespace Config

/-- The open `PAL_W` of the hardware after reset, as its distance from 3 (00_scope.md R10; log entry 2). -/
opaque palWLessThree : Fin 30

/-- The open `BASE` of the hardware after reset, in 64-byte blocks (00_scope.md R11; log entry 2). -/
opaque baseBlock : Nat

/-- The parameters of the machine that `State.reset` starts. -/
def params : Params := ⟨⟨palWLessThree.val + 3, by omega, by omega⟩, baseBlock⟩

/-- FREE VALUE: a coarse bucket's count after the `n`-th hardware reset, by key (10_state.md R43; log entry 3). -/
opaque resetCoarseCount : Nat → Nat → Count

/-- FREE VALUE: a coarse bucket's sums after the `n`-th hardware reset, by key and channel 0..2 (R43; log entry 3). -/
opaque resetCoarseSum : Nat → Nat → Nat → Sum

/-- FREE VALUE: a fine bucket's count after the `n`-th hardware reset, by key (10_state.md R43; log entry 3). -/
opaque resetFineCount : Nat → Nat → Count

/-- FREE VALUE: a fine bucket's sums after the `n`-th hardware reset, by key and channel 0..2 (R43; log entry 3). -/
opaque resetFineSum : Nat → Nat → Nat → Sum

/-- FREE VALUE: a map entry's `V` after the `n`-th hardware reset, by key (10_state.md R43; log entry 3). -/
opaque resetMapV : Nat → Nat → Bool

/-- FREE VALUE: a map entry's `IDX` after the `n`-th hardware reset, by key (10_state.md R43; log entry 3). -/
opaque resetMapIdx : Nat → Nat → BitVec 8

/-- FREE VALUE: a selection entry after the `n`-th hardware reset, by rank (10_state.md R43; log entry 3). -/
opaque resetSel : Nat → Nat → FineKey

/-- FREE VALUE: a palette entry after the `n`-th hardware reset, by index, before it is cut to the `PAL_W` bits that an
entry has (10_state.md R41, R43; log entry 3). -/
opaque resetPal : Nat → Nat → Word

/-- FREE VALUE: what the `n`-th draw reads of `RESULT_LO`, `RESULT_HI`, `TOTAL` or `PACKCFG` while `BUSY = 1`
(20_memory.md R65; log entry 4). -/
opaque busyWord : Nat → Word

/-- FREE VALUE: `STATUS.PHASE` as the `n`-th draw reads it while `BUSY = 1`; the value 3 is never read (20_memory.md
R65, 10_state.md R24; log entry 4). -/
opaque busyPhase : Nat → Fin 3

/-- FREE VALUE: `STATUS.CFG_VALID` as the `n`-th draw reads it while `BUSY = 1` (20_memory.md R65; log entry 4). -/
opaque busyCfgValid : Nat → Bool

/-- FREE VALUE: `STATUS.ERRSEEN` as the `n`-th draw reads it while `BUSY = 1` (20_memory.md R65; log entry 4). -/
opaque busyErrSeen : Nat → Bool

/-- FREE VALUE: `STATUS.OVR` as the `n`-th draw reads it while `BUSY = 1` (20_memory.md R65; log entry 4). -/
opaque busyOvr : Nat → Bool

/-- FREE VALUE: `STATUS.LASTERR` as the `n`-th draw reads it while `BUSY = 1` (20_memory.md R65; log entry 4). -/
opaque busyLastErr : Nat → BitVec 4

end Config

end Sys2Proof
end

