-- ==== Sys2Proof/Machine/State.lean ====
section
/-! DEFINITION. The state of the block (10_state.md), plain data, and the state right after a hardware reset (10_state.md
R43). BUSY is no field of its own: it is 1 exactly when `pending` holds a word (R42). PARAM shows `params.palW`
(R33). -/

namespace Sys2Proof.Machine

/-- A bucket record of the coarse or the fine grid (10_state.md R36, R38). Its key is its index (R37). -/
structure Bucket where
  count : Count
  rSum : Sum
  gSum : Sum
  bSum : Sum
deriving DecidableEq, Repr

/-- An entry of the Fine→Palette map: `V = 0` is the sentinel "unassigned" (10_state.md R39). -/
structure MapEntry where
  v : Bool
  idx : BitVec 8
deriving DecidableEq, Repr

/-- The lifecycle state `STATUS.PHASE` (10_state.md R30). -/
inductive Phase where
  | uninit | accum | built
deriving DecidableEq, Repr

/-- The error codes that `STATUS.LASTERR` can hold; 7 to 15 are never written (60_exceptions.md R190). -/
inductive ErrCode where
  | ok | illegal | phase | badCfg | noCfg | overflow | range
deriving DecidableEq, Repr

/-- What happens next from outside the engine, or that the engine takes its turn. The list of them in the state is the
total order in which the bus delivers the hosts' accesses (20_memory.md R69, R71), with the engine's turns placed
among them (70_reset_and_hazards.md R230). A host is a number; the block does not look at it (60_exceptions.md R197). -/
inductive BusEvent where
  /-- The engine takes its step (R230). -/
  | engine
  /-- A host's read of `size` bytes at a bus address (20_memory.md R60, R66). -/
  | memRead (host : Nat) (addr : Nat) (size : Nat)
  /-- A host's write of `size` bytes at a bus address (20_memory.md R60, R66). -/
  | memWrite (host : Nat) (addr : Nat) (size : Nat) (value : Word)
  /-- Power-on or the platform's reset input (70_reset_and_hazards.md R220). -/
  | hwReset
deriving DecidableEq, Repr

/-- What a host's read got back (20_memory.md R75). -/
structure HostReply where
  host : Nat
  addr : Nat
  value : Word
deriving DecidableEq, Repr

/-- The whole machine: the spec's state, then the model's own `inputs`, `replies` and `draws`. -/
structure State where
  /-- The open parameters, which never change (00_scope.md R10, R11; PARAM of 10_state.md R33). -/
  params : Params
  /-- The one-slot command buffer PENDING (10_state.md R42). -/
  pending : Option Word
  /-- STATUS.PHASE (R30). -/
  phase : Phase
  /-- STATUS.CFG_VALID (R26). -/
  cfgValid : Bool
  /-- STATUS.ERRSEEN (R27). -/
  errSeen : Bool
  /-- STATUS.OVR (R28). -/
  ovr : Bool
  /-- STATUS.LASTERR (R29). -/
  lastErr : ErrCode
  /-- RESULT (R31). -/
  result : BitVec 64
  /-- PACKCFG, in the bit positions of R32. -/
  packcfg : Word
  /-- TOTAL (R34). -/
  total : Word
  /-- The coarse grid `C` (R36). -/
  coarse : Vector Bucket 64
  /-- The fine grid `F` (R38). -/
  fine : Vector Bucket 4096
  /-- The Fine→Palette map `MAP` (R39). -/
  map : Vector MapEntry 4096
  /-- The selection table `SEL` (R40). -/
  sel : Vector FineKey 128
  /-- The palette `PAL`; an entry is `PAL_W` bits, the bits above them 0 (R41). -/
  pal : Vector Word 192
  /-- MODEL'S OWN: the accesses and engine turns still to come, the next one first (log entry 1). -/
  inputs : List BusEvent
  /-- MODEL'S OWN: what the hosts' reads got back, the newest first (log entry 1). -/
  replies : List HostReply
  /-- MODEL'S OWN: the number of the next free value (log entries 3 and 4). -/
  draws : Nat
deriving DecidableEq, Repr

/-- Why a step cannot be taken. -/
inductive Fault where
  /-- Raised by the engine's turn when PENDING is empty, and so also when nothing at all is left to happen: the engine has
  no step (70_reset_and_hazards.md R230). Safe: the machine stops where the spec gives it no step. -/
  | noStep
  /-- Raised by a host access that is not an aligned 32-bit access of the register window: it has no step and the host is
  stuck (20_memory.md R66). Safe: the model stops where the spec gives the access no meaning. -/
  | undefinedAccess
deriving DecidableEq, Repr

/-- Why an instruction has no meaning in the model. -/
inductive Refusal where
  /-- The instruction has no meaning yet. Raised by no arm: every row of the opcode table has its meaning. Safe. -/
  | notModelled (mnemonic : String)
deriving DecidableEq, Repr

/-- The coarse grid as the `n`-th hardware reset leaves it: unspecified (10_state.md R43; log entry 3). -/
@[irreducible] def resetCoarse (n : Nat) : Vector Bucket 64 :=
  Vector.ofFn fun k => ⟨Config.resetCoarseCount n k.val, Config.resetCoarseSum n k.val 0,
    Config.resetCoarseSum n k.val 1, Config.resetCoarseSum n k.val 2⟩

/-- The fine grid as the `n`-th hardware reset leaves it: unspecified (10_state.md R43; log entry 3). -/
@[irreducible] def resetFine (n : Nat) : Vector Bucket 4096 :=
  Vector.ofFn fun k => ⟨Config.resetFineCount n k.val, Config.resetFineSum n k.val 0,
    Config.resetFineSum n k.val 1, Config.resetFineSum n k.val 2⟩

/-- The Fine→Palette map as the `n`-th hardware reset leaves it: unspecified (10_state.md R43; log entry 3). -/
@[irreducible] def resetMap (n : Nat) : Vector MapEntry 4096 :=
  Vector.ofFn fun k => ⟨Config.resetMapV n k.val, Config.resetMapIdx n k.val⟩

/-- The selection table as the `n`-th hardware reset leaves it: unspecified (10_state.md R43; log entry 3). -/
@[irreducible] def resetSel (n : Nat) : Vector FineKey 128 := Vector.ofFn fun r => Config.resetSel n r.val

/-- The palette as the `n`-th hardware reset leaves it: unspecified, each entry `PAL_W` bits (10_state.md R41, R43; log
entry 3). -/
@[irreducible] def resetPal (p : PalW) (n : Nat) : Vector Word 192 :=
  Vector.ofFn fun i => BitVec.ofNat 32 ((Config.resetPal n i.val).toNat % 2 ^ p.bits)

/-- The state a hardware reset leaves (10_state.md R43, 70_reset_and_hazards.md R220): the registers at their reset values;
the five arrays unspecified, as the `n`-th draw of free values (log entry 3); the outside world's events and the
hosts' replies as given. -/
def State.afterReset (p : Params) (n : Nat) (inputs : List BusEvent) (replies : List HostReply) : State where
  params := p
  pending := none
  phase := .uninit
  cfgValid := false
  errSeen := false
  ovr := false
  lastErr := .ok
  result := 0#64
  packcfg := 0#32
  total := 0#32
  coarse := resetCoarse n
  fine := resetFine n
  map := resetMap n
  sel := resetSel n
  pal := resetPal p.palW n
  inputs := inputs
  replies := replies
  draws := n + 1

/-- The machine right after power-on: no host access scheduled (10_state.md R43; log entries 1, 2 and 3). -/
def State.reset : State := State.afterReset Config.params 0 [] []

end Sys2Proof.Machine
end

