-- ==== Sys2Proof/Syntax.lean ====
section
/-! DEFINITION. The commands of the block: one constructor per row of spec/opcode_table.json, each with exactly the
operand fields of its format (30_encoding.md R81 to R83). -/

namespace Sys2Proof

/-- The bucket field that `FLD` selects: 0 = `count`, 1 = `R_sum`, 2 = `G_sum`, 3 = `B_sum` (30_encoding.md R82). -/
inductive BucketField where
  | count | red | green | blue
deriving DecidableEq, Repr

/-- The eleven rows of the opcode map (30_encoding.md R83, 00_scope.md R18). -/
inductive Opcode where
  | nop | reset | config | observe | build | lookup | rdcoarse | rdfine | rdmap | rdsel | rdpal
deriving DecidableEq, Repr

/-- A command with its operands, all unsigned fields at the width of their format (30_encoding.md R82). -/
inductive Instr where
  /-- `NOP` (format N, R160). -/
  | nop
  /-- `RESET` (format N, R100). -/
  | reset
  /-- `CONFIG r=RW@RO, g=GW@GO, b=BW@BO` (format K, R162). -/
  | config (rw : BitVec 4) (ro : BitVec 5) (gw : BitVec 4) (go : BitVec 5) (bw : BitVec 4) (bo : BitVec 5)
  /-- `OBSERVE pix` (format P, R105). -/
  | observe (pix : Pixel)
  /-- `BUILD` (format N, R120). -/
  | build
  /-- `LOOKUP pix` (format P, R150). -/
  | lookup (pix : Pixel)
  /-- `RDCOARSE idx, fld` (format BC, R165). -/
  | rdcoarse (idx : CoarseKey) (fld : BucketField)
  /-- `RDFINE idx, fld` (format BF, R166). -/
  | rdfine (idx : FineKey) (fld : BucketField)
  /-- `RDMAP idx` (format M, R167). -/
  | rdmap (idx : FineKey)
  /-- `RDSEL rank` (format S, R168). -/
  | rdsel (rank : Rank)
  /-- `RDPAL idx` (format Q, R169). -/
  | rdpal (idx : BitVec 8)
deriving DecidableEq, Repr

/-- The row of the opcode map that a command belongs to. -/
def Instr.op : Instr → Opcode
  | .nop => .nop
  | .reset => .reset
  | .config _ _ _ _ _ _ => .config
  | .observe _ => .observe
  | .build => .build
  | .lookup _ => .lookup
  | .rdcoarse _ _ => .rdcoarse
  | .rdfine _ _ => .rdfine
  | .rdmap _ => .rdmap
  | .rdsel _ => .rdsel
  | .rdpal _ => .rdpal

end Sys2Proof
end

