-- ==== Sys2Proof/Machine/Flags.lean ====
section
/-! DEFINITION. The flag-like state: the STATUS word (10_state.md R24; there are no arithmetic flags, R47), the codes of
PHASE and LASTERR (R30, 60_exceptions.md R190), and the phase permissions (60_exceptions.md R203). -/

namespace Sys2Proof.Machine

/-- The code of a phase in `STATUS.PHASE` (10_state.md R24). -/
def Phase.code : Phase → BitVec 2
  | .uninit => 0#2
  | .accum => 1#2
  | .built => 2#2

/-- The code of an error in `STATUS.LASTERR` (60_exceptions.md R190). -/
def ErrCode.code : ErrCode → BitVec 4
  | .ok => 0#4
  | .illegal => 1#4
  | .phase => 2#4
  | .badCfg => 3#4
  | .noCfg => 4#4
  | .overflow => 5#4
  | .range => 6#4

/-- `STATUS.BUSY`: PENDING holds a word (10_state.md R42). -/
def State.busy (s : State) : Bool := s.pending.isSome

/-- The STATUS word of its fields; bits [7:6] and [31:12] read as 0 (10_state.md R24). -/
def statusWord (busy : Bool) (phase : BitVec 2) (cfgValid errSeen ovr : Bool) (lastErr : BitVec 4) : Word :=
  0#20 ++ lastErr ++ 0#2 ++ BitVec.ofBool ovr ++ BitVec.ofBool errSeen ++ BitVec.ofBool cfgValid ++ phase ++
    BitVec.ofBool busy

/-- STATUS as its rules define it, read while `BUSY = 0` (10_state.md R24, 20_memory.md R65). -/
def State.status (s : State) : Word :=
  statusWord s.busy s.phase.code s.cfgValid s.errSeen s.ovr s.lastErr.code

/-- STATUS read while `BUSY = 1`: BUSY is 1, every other field is the `n`-th free value, and the bits without a field
read as 0 (20_memory.md R65, 10_state.md R24; log entry 4). -/
def busyStatus (n : Nat) : Word :=
  statusWord true (BitVec.ofNat 2 (Config.busyPhase n).val) (Config.busyCfgValid n) (Config.busyErrSeen n)
    (Config.busyOvr n) (Config.busyLastErr n)

/-- Whether a command is allowed in a phase (60_exceptions.md R203). -/
def permitted : Opcode → Phase → Bool
  | .nop, _ => true
  | .reset, _ => true
  | .config, _ => true
  | .observe, p => p == .accum
  | .build, p => p == .accum
  | .lookup, p => p == .built
  | .rdcoarse, p => p != .uninit
  | .rdfine, p => p != .uninit
  | .rdmap, p => p != .uninit
  | .rdsel, p => p == .built
  | .rdpal, p => p == .built

end Sys2Proof.Machine
end

