-- ==== Sys2Proof/Machine/Operands.lean ====
section
/-! DEFINITION. The pure functions over operands: pixel fields and keys (00_scope.md R14, R15), the bucket field selection
(44_control_and_readback.md R164), the packing layout (10_state.md R32, 44 R163), averaging and packing
(42_palette_builder.md R128, R131, R132). -/

namespace Sys2Proof.Machine

/-- `red(p) = p[15:11]` (00_scope.md R14). -/
def red (p : Pixel) : BitVec 5 := p.extractLsb' 11 5

/-- `green(p) = p[10:5]` (00_scope.md R14). -/
def green (p : Pixel) : BitVec 6 := p.extractLsb' 5 6

/-- `blue(p) = p[4:0]` (00_scope.md R14). -/
def blue (p : Pixel) : BitVec 5 := p.extractLsb' 0 5

/-- The coarse key: the top two bits of each channel (00_scope.md R15, whose `*16 + *4 +` places them side by side). -/
def coarseKey (p : Pixel) : CoarseKey :=
  (red p).extractLsb' 3 2 ++ (green p).extractLsb' 4 2 ++ (blue p).extractLsb' 3 2

/-- The fine key: the top four bits of each channel (00_scope.md R15). -/
def fineKey (p : Pixel) : FineKey :=
  (red p).extractLsb' 1 4 ++ (green p).extractLsb' 2 4 ++ (blue p).extractLsb' 1 4

/-- The parent relation: it drops the two low bits of each channel's four (00_scope.md R15). -/
def parent (k : FineKey) : CoarseKey :=
  k.extractLsb' 10 2 ++ k.extractLsb' 6 2 ++ k.extractLsb' 2 2

/-- The empty bucket (41_accumulator.md R100). -/
def Bucket.empty : Bucket := ⟨0#32, 0#38, 0#38, 0#38⟩

/-- The unassigned map entry (10_state.md R39). -/
def MapEntry.unassigned : MapEntry := ⟨false, 0#8⟩

/-- A map entry assigned to a palette index (10_state.md R39). -/
def MapEntry.assigned (i : BitVec 8) : MapEntry := ⟨true, i⟩

/-- The nine bits `{V, IDX}` of a map entry (44_control_and_readback.md R167). -/
def MapEntry.bits (e : MapEntry) : BitVec 9 := BitVec.ofBool e.v ++ e.idx

/-- A bucket with one more pixel: the raw channel values are added (41_accumulator.md R105). -/
def Bucket.add (b : Bucket) (p : Pixel) : Bucket where
  count := b.count + 1#32
  rSum := b.rSum + (red p).setWidth 38
  gSum := b.gSum + (green p).setWidth 38
  bSum := b.bSum + (blue p).setWidth 38

/-- A bucket less another, field by field (42_palette_builder.md R125). -/
def Bucket.sub (b d : Bucket) : Bucket where
  count := b.count - d.count
  rSum := b.rSum - d.rSum
  gSum := b.gSum - d.gSum
  bSum := b.bSum - d.bSum

/-- The field of a bucket that `FLD` selects, zero-extended to 64 bits (44_control_and_readback.md R164). -/
def Bucket.field (b : Bucket) : BucketField → BitVec 64
  | .count => b.count.setWidth 64
  | .red => b.rSum.setWidth 64
  | .green => b.gSum.setWidth 64
  | .blue => b.bSum.setWidth 64

/-- A packing layout: each channel's width and offset in the packed entry (10_state.md R32). -/
structure Layout where
  rw : Nat
  ro : Nat
  gw : Nat
  go : Nat
  bw : Nat
  bo : Nat
deriving DecidableEq, Repr

/-- The layout that PACKCFG holds (10_state.md R32). -/
def layoutOf (cfg : Word) : Layout where
  rw := (cfg.extractLsb' 24 4).toNat
  ro := (cfg.extractLsb' 19 5).toNat
  gw := (cfg.extractLsb' 15 4).toNat
  go := (cfg.extractLsb' 10 5).toNat
  bw := (cfg.extractLsb' 6 4).toNat
  bo := (cfg.extractLsb' 1 5).toNat

/-- The layout that a `CONFIG`'s operands give. -/
def configLayout (rw : BitVec 4) (ro : BitVec 5) (gw : BitVec 4) (go : BitVec 5) (bw : BitVec 4) (bo : BitVec 5) :
    Layout :=
  ⟨rw.toNat, ro.toNat, gw.toNat, go.toNat, bw.toNat, bo.toNat⟩

/-- Whether the bit ranges `[o1, o1+w1)` and `[o2, o2+w2)` share no bit, for widths of at least 1 (44 R163). -/
def apart (o1 w1 o2 w2 : Nat) : Bool := decide (o1 + w1 ≤ o2) || decide (o2 + w2 ≤ o1)

/-- A legal configuration for a palette entry of `n` bits: the four conditions (44_control_and_readback.md R163). -/
def Layout.legal (l : Layout) (n : Nat) : Bool :=
  (decide (1 ≤ l.rw) && decide (1 ≤ l.gw) && decide (1 ≤ l.bw)) &&
  decide (l.rw + l.gw + l.bw = n) &&
  (decide (l.ro + l.rw ≤ n) && decide (l.go + l.gw ≤ n) && decide (l.bo + l.bw ≤ n)) &&
  (apart l.ro l.rw l.go l.gw && apart l.ro l.rw l.bo l.bw && apart l.go l.gw l.bo l.bw)

/-- The mean of a channel: the zero colour for an empty bucket, else division truncated toward zero
(42_palette_builder.md R128). -/
def mean (sum count : Nat) : Nat := if count = 0 then 0 else sum / count

/-- The channel means `(ar, ag, ab)` of a bucket (42_palette_builder.md R128). -/
def Bucket.avg (b : Bucket) : Nat × Nat × Nat :=
  (mean b.rSum.toNat b.count.toNat, mean b.gSum.toNat b.count.toNat, mean b.bSum.toNat b.count.toNat)

/-- A mean of source width `s` placed in a field of width `w`: widen by zero bits at the bottom, narrow by dropping the
low bits (42_palette_builder.md R132). -/
def conv (v s w : Nat) : Nat := if s ≤ w then v <<< (w - s) else v >>> (s - w)

/-- The packed colour as an exact number (42_palette_builder.md R131). -/
def Layout.pack (l : Layout) (m : Nat × Nat × Nat) : Nat :=
  (conv m.1 5 l.rw <<< l.ro) ||| (conv m.2.1 6 l.gw <<< l.go) ||| (conv m.2.2 5 l.bw <<< l.bo)

/-- A packed colour as a palette entry stores it, which has `n` bits (10_state.md R41, 42_palette_builder.md R131). -/
def palWord (n v : Nat) : Word := BitVec.ofNat 32 (v % 2 ^ n)

/-- The palette entry of a bucket: `pack(avg(b))` in `n` bits (42_palette_builder.md R129, R130). -/
def paletteColour (n : Nat) (l : Layout) (b : Bucket) : Word := palWord n (l.pack b.avg)

end Sys2Proof.Machine
end

