-- ==== Sys2Proof/Machine/Ops.lean ====
section
/-! DEFINITION. The shared operations over the state: the internal register files read and written by key
(20_memory.md R61), `raise Error(code)` (60_exceptions.md R192), which is all that taking an exception is on this
hardware (R193, R194), and the completion of a command (70_reset_and_hazards.md R230). -/

namespace Sys2Proof.Machine

/-- `C[k]` (10_state.md R36). -/
def State.coarseAt (s : State) (k : CoarseKey) : Bucket := s.coarse[k.toNat]'k.isLt

/-- `F[k]` (10_state.md R38). -/
def State.fineAt (s : State) (k : FineKey) : Bucket := s.fine[k.toNat]'k.isLt

/-- `MAP[k]` (10_state.md R39). -/
def State.mapAt (s : State) (k : FineKey) : MapEntry := s.map[k.toNat]'k.isLt

/-- `SEL[r]` (10_state.md R40). -/
def State.selAt (s : State) (r : Rank) : FineKey := s.sel[r.toNat]'r.isLt

/-- `PAL[i]` for an index below 192 (10_state.md R41); a command that names another is refused before it reads (R169),
so the 0 beyond the array is read by nothing. -/
def State.palAt (s : State) (i : Nat) : Word := s.pal[i]?.getD 0#32

/-- `C[k] <- b`. -/
def State.setCoarse (s : State) (k : CoarseKey) (b : Bucket) : State := { s with coarse := s.coarse.set k.toNat b k.isLt }

/-- `F[k] <- b`. -/
def State.setFine (s : State) (k : FineKey) (b : Bucket) : State := { s with fine := s.fine.set k.toNat b k.isLt }

/-- `raise Error(code)`: `LASTERR <- code` and `ERRSEEN <- 1`, and nothing else (60_exceptions.md R192). -/
def State.raise (s : State) (e : ErrCode) : State := { s with lastErr := e, errSeen := true }

/-- `LASTERR <- 0`, which every successful command writes (10_state.md R29). -/
def State.succeed (s : State) : State := { s with lastErr := .ok }

/-- `RESULT <- v` (all 64 bits) and `LASTERR <- 0` (10_state.md R31). -/
def State.answer (s : State) (v : BitVec 64) : State := { s with result := v, lastErr := .ok }

/-- The phase check of a command before its own effect (60_exceptions.md R191, R203). -/
def State.guardPhase (s : State) (op : Opcode) (body : State) : State :=
  if permitted op s.phase then body else s.raise .phase

/-- The next bus event or engine turn has happened (log entry 1); with none left there is nothing to drop. -/
def State.popInput (s : State) : State := { s with inputs := s.inputs.tail }

/-- A command completes: `PENDING <- empty`, and so `BUSY <- 0` (70_reset_and_hazards.md R230). -/
def State.complete (s : State) : State := { s with pending := none }

end Sys2Proof.Machine
end

