-- ==== Sys2Proof/Machine/Bus.lean ====
section
/-! DEFINITION. The hosts' side: the register window and its accesses (10_state.md R22 to R35, 20_memory.md R60 to R67) and
the hardware reset (70_reset_and_hazards.md R220). -/

namespace Sys2Proof.Machine

/-- `BASE`, a multiple of 64 (00_scope.md R11). -/
def base (p : Params) : Nat := 64 * p.baseBlock

/-- A register of the window (10_state.md R22). -/
inductive WindowReg where
  | cmd | status | resultLo | resultHi | packcfg | total | param | reserved
deriving DecidableEq, Repr

/-- The register at a 4-byte-aligned offset of the window (10_state.md R22, R35). -/
def regAtOffset (off : Nat) : WindowReg :=
  if off = 0x00 then .cmd
  else if off = 0x04 then .status
  else if off = 0x08 then .resultLo
  else if off = 0x0C then .resultHi
  else if off = 0x10 then .packcfg
  else if off = 0x14 then .total
  else if off = 0x18 then .param
  else .reserved

/-- The register that an access reaches: four bytes at `BASE + off` with `off` a multiple of 4 in 0x00..0x3C
(20_memory.md R60); any other access is outside the interface (R66). -/
def accessedReg (p : Params) (addr size : Nat) : Option WindowReg :=
  if size = 4 ∧ base p ≤ addr ∧ addr - base p ≤ 0x3C ∧ (addr - base p) % 4 = 0 then some (regAtOffset (addr - base p))
  else none

/-- `PARAM`: `PAL_W` in bits [5:0], the others 0 (10_state.md R33). -/
def paramWord (p : Params) : Word := BitVec.ofNat 32 p.palW.bits

/-- What a register reads as while `BUSY = 0` (10_state.md R22 to R35, 20_memory.md R65). -/
def idleRead (s : State) : WindowReg → Word
  | .cmd => 0#32
  | .status => s.status
  | .resultLo => s.result.extractLsb' 0 32
  | .resultHi => s.result.extractLsb' 32 32
  | .packcfg => s.packcfg
  | .total => s.total
  | .param => paramWord s.params
  | .reserved => 0#32

/-- What a register reads as while `BUSY = 1`: the `n`-th free value where R65 calls the value unspecified
(20_memory.md R65; log entry 4). -/
def busyRead (s : State) (n : Nat) : WindowReg → Word
  | .cmd => 0#32
  | .status => busyStatus n
  | .resultLo => Config.busyWord n
  | .resultHi => Config.busyWord n
  | .packcfg => Config.busyWord n
  | .total => Config.busyWord n
  | .param => paramWord s.params
  | .reserved => 0#32

/-- The value a read of a register returns (20_memory.md R65, R69). -/
def readReg (s : State) (r : WindowReg) : Word := if s.busy then busyRead s s.draws r else idleRead s r

/-- A host's read returns its register's value and has no effect on the block (20_memory.md R63, R65); the reply is kept
and the next draw is a new one. -/
def hostRead (host addr size : Nat) (s : State) : Host.Outcome State Fault Refusal :=
  match accessedReg s.params addr size with
  | none => .fault .undefinedAccess
  | some r => .next { s with replies := ⟨host, addr, readReg s r⟩ :: s.replies, draws := s.draws + 1 }

/-- A write to CMD is accepted if PENDING is empty, else it is discarded and sets OVR (20_memory.md R64). -/
def issue (w : Word) (s : State) : State :=
  match s.pending with
  | none => { s with pending := some w }
  | some _ => { s with ovr := true }

/-- A host's write: to CMD it issues a command, to any other register it is ignored (20_memory.md R63, R64). -/
def hostWrite (addr size : Nat) (w : Word) (s : State) : Host.Outcome State Fault Refusal :=
  match accessedReg s.params addr size with
  | none => .fault .undefinedAccess
  | some .cmd => .next (issue w s)
  | some _ => .next s

/-- Power-on or the platform's reset input; a pending command is lost (70_reset_and_hazards.md R220). What the outside
world still has to send stays. -/
def hardwareReset (s : State) : State := State.afterReset s.params s.draws s.inputs s.replies

end Sys2Proof.Machine
end

