-- ==== Sys2Proof/Machine/Accumulator.lean ====
section
/-! DEFINITION. The accumulator commands RESET and OBSERVE (41_accumulator.md). -/

namespace Sys2Proof.Machine

/-- The effect of `RESET`: grids zeroed, map unassigned, TOTAL 0, phase ACCUM; SEL, PAL, PACKCFG, CFG_VALID, ERRSEEN, OVR
and RESULT stay (41_accumulator.md R100). -/
def resetImage (s : State) : State :=
  { s with
    coarse := Vector.replicate 64 Bucket.empty
    fine := Vector.replicate 4096 Bucket.empty
    map := Vector.replicate 4096 MapEntry.unassigned
    total := 0#32
    phase := .accum
    lastErr := .ok }

/-- `RESET` (41_accumulator.md R100). -/
def execReset (s : State) : Host.Outcome State Fault Refusal :=
  .next (s.guardPhase .reset (resetImage s))

/-- One pixel goes into its coarse bucket, its fine bucket and TOTAL, in one step (41_accumulator.md R105, R107). -/
def observePixel (pix : Pixel) (s : State) : State :=
  let ck := coarseKey pix
  let fk := fineKey pix
  { (((s.setCoarse ck ((s.coarseAt ck).add pix)).setFine fk ((s.fineAt fk).add pix)).succeed) with
    total := s.total + 1#32 }

/-- `OBSERVE pix`: refused at the pixel-count limit (41_accumulator.md R105, R108). -/
def execObserve (pix : Pixel) (s : State) : Host.Outcome State Fault Refusal :=
  .next (s.guardPhase .observe (if s.total = 0xFFFFFFFF#32 then s.raise .overflow else observePixel pix s))

end Sys2Proof.Machine
end

