-- ==== Sys2Proof/Decode.lean ====
section
/-! DEFINITION. The decoder, total on every 32-bit word (30_encoding.md R86), and the encoder, both from the opcode map
and the formats of 30_encoding.md R81 to R83; the little-endian byte lanes of 20_memory.md R62; the pseudo-commands
of R88. -/

namespace Sys2Proof

/-- One row of the opcode map: a word is this command exactly when `(w & mask) = pattern` (30_encoding.md R83, where the
column is called `match`). -/
structure OpRow where
  op : Opcode
  pattern : Word
  mask : Word
deriving DecidableEq, Repr

/-- The row of the opcode map for an opcode (30_encoding.md R83). -/
def rowOf : Opcode → OpRow
  | .nop => ⟨.nop, 0x00000000#32, 0xFFFFFFFF#32⟩
  | .reset => ⟨.reset, 0x10000000#32, 0xFFFFFFFF#32⟩
  | .config => ⟨.config, 0x20000000#32, 0xF0000001#32⟩
  | .observe => ⟨.observe, 0x30000000#32, 0xFFFF0000#32⟩
  | .build => ⟨.build, 0x40000000#32, 0xFFFFFFFF#32⟩
  | .lookup => ⟨.lookup, 0x50000000#32, 0xFFFF0000#32⟩
  | .rdcoarse => ⟨.rdcoarse, 0x60000000#32, 0xFFFFCFC0#32⟩
  | .rdfine => ⟨.rdfine, 0x70000000#32, 0xFFFFC000#32⟩
  | .rdmap => ⟨.rdmap, 0x80000000#32, 0xFFFFF000#32⟩
  | .rdsel => ⟨.rdsel, 0x90000000#32, 0xFFFFFF80#32⟩
  | .rdpal => ⟨.rdpal, 0xA0000000#32, 0xFFFFFF00#32⟩

/-- The opcodes in the order of the opcode map (30_encoding.md R83). -/
def opcodes : List Opcode :=
  [.nop, .reset, .config, .observe, .build, .lookup, .rdcoarse, .rdfine, .rdmap, .rdsel, .rdpal]

/-- The opcode map (30_encoding.md R83). -/
def opcodeMap : List OpRow := opcodes.map rowOf

/-- Whether a word encodes a row's command (30_encoding.md R83). -/
def OpRow.hits (r : OpRow) (w : Word) : Bool := (w &&& r.mask) == r.pattern

/-- The bucket field a two-bit `FLD` selects (30_encoding.md R82). -/
def fieldOfCode (f : BitVec 2) : BucketField :=
  if f = 0#2 then .count else if f = 1#2 then .red else if f = 2#2 then .green else .blue

/-- The `FLD` code of a bucket field (30_encoding.md R82). -/
def fieldCode : BucketField → BitVec 2
  | .count => 0#2
  | .red => 1#2
  | .green => 2#2
  | .blue => 3#2

/-- The operand fields of a word of the given row, straight from the word (30_encoding.md R82). -/
def operands (op : Opcode) (w : Word) : Instr :=
  match op with
  | .nop => .nop
  | .reset => .reset
  | .config => .config (w.extractLsb' 24 4) (w.extractLsb' 19 5) (w.extractLsb' 15 4) (w.extractLsb' 10 5)
      (w.extractLsb' 6 4) (w.extractLsb' 1 5)
  | .observe => .observe (w.extractLsb' 0 16)
  | .build => .build
  | .lookup => .lookup (w.extractLsb' 0 16)
  | .rdcoarse => .rdcoarse (w.extractLsb' 0 6) (fieldOfCode (w.extractLsb' 12 2))
  | .rdfine => .rdfine (w.extractLsb' 0 12) (fieldOfCode (w.extractLsb' 12 2))
  | .rdmap => .rdmap (w.extractLsb' 0 12)
  | .rdsel => .rdsel (w.extractLsb' 0 7)
  | .rdpal => .rdpal (w.extractLsb' 0 8)

/-- Why a word (or a run of bytes) is no command. -/
inductive Illegal where
  /-- `OP` is 0xB to 0xF (30_encoding.md R85). -/
  | reservedOpcode
  /-- `OP` is 0x0 to 0xA and a bit that its format marks 0 is set (30_encoding.md R84). -/
  | reservedBits
  /-- Fewer than the four bytes of a command word were given (30_encoding.md R80); no 32-bit word is rejected so. -/
  | truncated
deriving DecidableEq, Repr

/-- Which of the two kinds of illegal word a word that no row matches is (30_encoding.md R84, R85). -/
def illegalReason (w : Word) : Illegal :=
  if 0xB ≤ (w.extractLsb' 28 4).toNat then .reservedOpcode else .reservedBits

/-- The decode function, total on all 2^32 words; `.error` is the spec's `ILLEGAL` (30_encoding.md R86). -/
def decode (w : Word) : Except Illegal Instr :=
  match opcodeMap.find? (fun r => r.hits w) with
  | some r => .ok (operands r.op w)
  | none => .error (illegalReason w)

/-- Byte lane `j` of a register carries its bits `[8j+7 : 8j]` (20_memory.md R62). -/
def laneByte (w : Word) (j : Nat) : Byte := w.extractLsb' (8 * j) 8

/-- The word that four byte lanes carry, lane 0 first (20_memory.md R62). -/
def wordOfLanes (b0 b1 b2 b3 : Byte) : Word := b3 ++ b2 ++ b1 ++ b0

/-- The four byte lanes of a word, lane 0 first (20_memory.md R62). -/
def lanes (w : Word) : List Byte := [laneByte w 0, laneByte w 1, laneByte w 2, laneByte w 3]

/-- The command at the front of a run of bytes as a byte-addressed bridge delivers them (20_memory.md R62, 30_encoding.md
R80), with the bytes that follow it. -/
def decodeBytes : List Byte → Except Illegal (Instr × List Byte)
  | b0 :: b1 :: b2 :: b3 :: rest => (decode (wordOfLanes b0 b1 b2 b3)).map (fun i => (i, rest))
  | _ => .error .truncated

/-- The word of a `CONFIG` with the given fields (format K, 30_encoding.md R81). -/
def configWord (rw : BitVec 4) (ro : BitVec 5) (gw : BitVec 4) (go : BitVec 5) (bw : BitVec 4) (bo : BitVec 5) : Word :=
  0x2#4 ++ rw ++ ro ++ gw ++ go ++ bw ++ bo ++ 0#1

/-- The 32-bit word of a command (30_encoding.md R81, R83, R87). -/
def encode : Instr → Word
  | .nop => 0x0#4 ++ 0#28
  | .reset => 0x1#4 ++ 0#28
  | .config rw ro gw go bw bo => configWord rw ro gw go bw bo
  | .observe pix => 0x3#4 ++ 0#12 ++ pix
  | .build => 0x4#4 ++ 0#28
  | .lookup pix => 0x5#4 ++ 0#12 ++ pix
  | .rdcoarse idx fld => 0x6#4 ++ 0#14 ++ fieldCode fld ++ 0#6 ++ idx
  | .rdfine idx fld => 0x7#4 ++ 0#14 ++ fieldCode fld ++ idx
  | .rdmap idx => 0x8#4 ++ 0#16 ++ idx
  | .rdsel rank => 0x9#4 ++ 0#21 ++ rank
  | .rdpal idx => 0xA#4 ++ 0#20 ++ idx

/-- `CFG565`: `CONFIG r=5@11, g=6@5, b=5@0` (30_encoding.md R88). -/
def cfg565 : Instr := .config 5#4 11#5 6#4 5#5 5#4 0#5

/-- `CFG666`: `CONFIG r=6@12, g=6@6, b=6@0` (30_encoding.md R88). -/
def cfg666 : Instr := .config 6#4 12#5 6#4 6#5 6#4 0#5

/-- `CFG332`: `CONFIG r=3@5, g=3@2, b=2@0` (30_encoding.md R88). -/
def cfg332 : Instr := .config 3#4 5#5 3#4 2#5 2#4 0#5

/-- `RDCOUNT.C idx`: `RDCOARSE idx, count` (30_encoding.md R88). -/
def rdcountC (idx : CoarseKey) : Instr := .rdcoarse idx .count

/-- `RDCOUNT.F idx`: `RDFINE idx, count` (30_encoding.md R88). -/
def rdcountF (idx : FineKey) : Instr := .rdfine idx .count

/-- The word whose bits are `w`, of an opcode-table row of `nbits` bits; bits from `nbits` up are 0. -/
def tableWord (nbits w : Nat) : Word := BitVec.ofNat 32 (w % 2 ^ nbits)

/-- The instruction the decoder reads from a table row's word: the word's bytes as its lanes hold them (20_memory.md
R62), given to the decoder. -/
def decodeTableWord (nbits w : Nat) : Option Instr :=
  match decodeBytes (lanes (tableWord nbits w)) with
  | .ok (i, _) => some i
  | .error _ => none

end Sys2Proof
end

