-- ==== Sys2Proof/Machine/Control.lean ====
section
/-! DEFINITION. The control and read-back commands (44_control_and_readback.md). -/

namespace Sys2Proof.Machine

/-- `NOP`: it only writes `LASTERR <- 0` (44_control_and_readback.md R160). -/
def execNop (s : State) : Host.Outcome State Fault Refusal :=
  .next (s.guardPhase .nop s.succeed)

/-- A layout is accepted: `PACKCFG <- w & 0x0FFFFFFE` and `CFG_VALID <- 1` (44_control_and_readback.md R162). -/
def acceptConfig (w : Word) (s : State) : State :=
  { s with packcfg := w &&& 0x0FFFFFFE#32, cfgValid := true, lastErr := .ok }

/-- `CONFIG r=RW@RO, g=GW@GO, b=BW@BO` (44_control_and_readback.md R162, R163). -/
def execConfig (rw : BitVec 4) (ro : BitVec 5) (gw : BitVec 4) (go : BitVec 5) (bw : BitVec 4) (bo : BitVec 5)
    (s : State) : Host.Outcome State Fault Refusal :=
  .next (s.guardPhase .config
    (if (configLayout rw ro gw go bw bo).legal s.params.palW.bits then acceptConfig (configWord rw ro gw go bw bo) s
     else s.raise .badCfg))

/-- `RDCOARSE idx, fld` (44_control_and_readback.md R165). -/
def execRdcoarse (idx : CoarseKey) (fld : BucketField) (s : State) : Host.Outcome State Fault Refusal :=
  .next (s.guardPhase .rdcoarse (s.answer ((s.coarseAt idx).field fld)))

/-- `RDFINE idx, fld` (44_control_and_readback.md R166). -/
def execRdfine (idx : FineKey) (fld : BucketField) (s : State) : Host.Outcome State Fault Refusal :=
  .next (s.guardPhase .rdfine (s.answer ((s.fineAt idx).field fld)))

/-- `RDMAP idx` (44_control_and_readback.md R167). -/
def execRdmap (idx : FineKey) (s : State) : Host.Outcome State Fault Refusal :=
  .next (s.guardPhase .rdmap (s.answer ((s.mapAt idx).bits.setWidth 64)))

/-- `RDSEL rank` (44_control_and_readback.md R168). -/
def execRdsel (rank : Rank) (s : State) : Host.Outcome State Fault Refusal :=
  .next (s.guardPhase .rdsel (s.answer ((s.selAt rank).setWidth 64)))

/-- `RDPAL idx`: an index of 192 or more is refused (44_control_and_readback.md R169). -/
def execRdpal (idx : BitVec 8) (s : State) : Host.Outcome State Fault Refusal :=
  .next (s.guardPhase .rdpal
    (if 192 ≤ idx.toNat then s.raise .range else s.answer ((s.palAt idx.toNat).setWidth 64)))

end Sys2Proof.Machine
end

