-- ==== Sys2Proof/Machine/Lookup.lean ====
section
/-! DEFINITION. The constant-time palette lookup, LOOKUP (43_index_query.md). -/

namespace Sys2Proof.Machine

/-- A pixel's palette index: its fine bucket's map entry if that is assigned, else its coarse key (43_index_query.md
R150). -/
def paletteIndex (s : State) (pix : Pixel) : BitVec 8 :=
  let e := s.mapAt (fineKey pix)
  if e.v then e.idx else (coarseKey pix).setWidth 8

/-- `LOOKUP pix` (43_index_query.md R150). -/
def execLookup (pix : Pixel) (s : State) : Host.Outcome State Fault Refusal :=
  .next (s.guardPhase .lookup (s.answer ((paletteIndex s pix).setWidth 64)))

end Sys2Proof.Machine
end

