-- ==== Sys2Proof/Machine/PaletteBuilder.lean ====
section
/-! DEFINITION. The colour-bucket sorter and palette averager, BUILD (42_palette_builder.md): select, correct, average
coarse, average fine. -/

namespace Sys2Proof.Machine

/-- A fine key with its bucket's count: what the selection sorts. -/
structure Ranked where
  count : Count
  key : FineKey
deriving DecidableEq, Repr

/-- `a` precedes `b`: the larger count first, among equal counts the lower key (42_palette_builder.md R122, R123). -/
def Ranked.precedes (a b : Ranked) : Bool :=
  decide (b.count.toNat < a.count.toNat) ||
    (decide (a.count.toNat = b.count.toNat) && decide (a.key.toNat < b.key.toNat))

/-- Places `x` into a merge with the list given, and goes on by `rest` with what is left of that list. -/
def mergeHead {α : Type} (lt : α → α → Bool) (x : α) (rest : List α → List α) : List α → List α
  | [] => x :: rest []
  | y :: ys => if lt y x then y :: mergeHead lt x rest ys else x :: rest (y :: ys)

/-- Merges two sorted lists. -/
def mergeBy {α : Type} (lt : α → α → Bool) : List α → List α → List α
  | [], ys => ys
  | x :: xs, ys => mergeHead lt x (mergeBy lt xs) ys

/-- Merges neighbouring runs two by two. -/
def mergePass {α : Type} (lt : α → α → Bool) : List (List α) → List (List α)
  | [] => []
  | [a] => [a]
  | a :: b :: rest => mergeBy lt a b :: mergePass lt rest

/-- Merges all runs into one, after a number of passes that halve how many there are. -/
def mergeRuns {α : Type} (lt : α → α → Bool) : Nat → List (List α) → List α
  | 0, ls => ls.foldr (mergeBy lt) []
  | n + 1, ls => mergeRuns lt n (mergePass lt ls)

/-- Sorts a list. Twelve passes bring the 4096 runs of one fine key each to one run; the result is sorted whatever the
number of passes. -/
def sortBy {α : Type} (lt : α → α → Bool) (l : List α) : List α := mergeRuns lt 12 (l.map fun x => [x])

/-- The 4096 fine keys with their counts, in key order. -/
def rankedKeys (fine : Vector Bucket 4096) : List Ranked :=
  fine.toList.zipIdx.map fun p => ⟨p.1.count, BitVec.ofNat 12 p.2⟩

/-- `order`: the 4096 fine keys, sorted (42_palette_builder.md R122). -/
def fineOrder (fine : Vector Bucket 4096) : List FineKey := (sortBy Ranked.precedes (rankedKeys fine)).map Ranked.key

/-- Step 1, select: the first 128 keys of the order, by rank (42_palette_builder.md R124). -/
@[irreducible] def selection (fine : Vector Bucket 4096) : Vector FineKey 128 :=
  let order := fineOrder fine
  Vector.ofFn fun r => order.getD r.val 0#12

/-- The ranks 0..127 in order. -/
@[irreducible] def ranks : List Rank := (List.range 128).map (BitVec.ofNat 7)

/-- Step 2, correct, for one rank: the selected bucket is subtracted from its parent (42_palette_builder.md R125). -/
def correctRank (s : State) (r : Rank) : State :=
  let k := s.selAt r
  s.setCoarse (parent k) ((s.coarseAt (parent k)).sub (s.fineAt k))

/-- Step 4's map entry of one rank: `MAP[SEL[r]] <- {V: 1, IDX: 64 + r}` (42_palette_builder.md R130). -/
def assignRank (s : State) (r : Rank) : State :=
  let k := s.selAt r
  { s with map := s.map.set k.toNat (MapEntry.assigned (64#8 + r.setWidth 8)) k.isLt }

/-- The palette entry at an index: below 64 the corrected coarse bucket's colour, from 64 up the selected fine bucket's
(42_palette_builder.md R129, R130). -/
def paletteEntry (s : State) (i : Fin 192) : Word :=
  paletteColour s.params.palW.bits (layoutOf s.packcfg)
    (if i.val < 64 then s.coarseAt (BitVec.ofNat 6 i.val) else s.fineAt (s.selAt (BitVec.ofNat 7 (i.val - 64))))

/-- The palette that steps 3 and 4 write, all 192 entries (10_state.md R41). -/
@[irreducible] def newPalette (s : State) : Vector Word 192 := Vector.ofFn (paletteEntry s)

/-- Step 1 on the state. -/
def selectFine (s : State) : State := { s with sel := selection s.fine }

/-- Step 2 on the state, all 128 ranks before any averaging (42_palette_builder.md R126). -/
@[irreducible] def correctCoarse (s : State) : State := ranks.foldl correctRank s

/-- Steps 3 and 4 on the palette. -/
def averagePalette (s : State) : State := { s with pal := newPalette s }

/-- Step 4 on the map. -/
@[irreducible] def assignMap (s : State) : State := ranks.foldl assignRank s

/-- The four steps of `BUILD`, then `PHASE <- BUILT` and `LASTERR <- 0` (42_palette_builder.md R120, R134). -/
def buildPalette (s : State) : State :=
  { (assignMap (averagePalette (correctCoarse (selectFine s)))).succeed with phase := .built }

/-- `BUILD` (42_palette_builder.md R120, R121). -/
def execBuild (s : State) : Host.Outcome State Fault Refusal :=
  .next (s.guardPhase .build (if s.cfgValid then buildPalette s else s.raise .noCfg))

end Sys2Proof.Machine
end

