-- ==== Sys2Proof/Machine/Dispatch.lean ====
section
/-! DEFINITION. One arm per constructor of Instr (30_encoding.md R83). -/

namespace Sys2Proof.Machine

def exec (i : Instr) (s : State) : Host.Outcome State Fault Refusal :=
  match i with
  | .nop => Sys2Proof.Machine.execNop s
  | .reset => Sys2Proof.Machine.execReset s
  | .config rw ro gw go bw bo => Sys2Proof.Machine.execConfig rw ro gw go bw bo s
  | .observe pix => Sys2Proof.Machine.execObserve pix s
  | .build => Sys2Proof.Machine.execBuild s
  | .lookup pix => Sys2Proof.Machine.execLookup pix s
  | .rdcoarse idx fld => Sys2Proof.Machine.execRdcoarse idx fld s
  | .rdfine idx fld => Sys2Proof.Machine.execRdfine idx fld s
  | .rdmap idx => Sys2Proof.Machine.execRdmap idx s
  | .rdsel rank => Sys2Proof.Machine.execRdsel rank s
  | .rdpal idx => Sys2Proof.Machine.execRdpal idx s

end Sys2Proof.Machine
end

