-- ==== Sys2Proof/Machine/Engine.lean ====
section
/-! DEFINITION. The engine's step (70_reset_and_hazards.md R230): it executes the pending word and completes it. -/

namespace Sys2Proof.Machine

/-- The command in an outcome completes (70_reset_and_hazards.md R230, 60_exceptions.md R192). -/
def completeOutcome : Host.Outcome State Fault Refusal → Host.Outcome State Fault Refusal
  | .next s => .next s.complete
  | .fault r => .fault r
  | .refused r => .refused r

/-- What executing a word does: an illegal word raises `ERR_ILLEGAL` before any other check (60_exceptions.md R191). -/
def execWord (w : Word) (s : State) : Host.Outcome State Fault Refusal :=
  match decode w with
  | .ok i => exec i s
  | .error _ => .next (s.raise .illegal)

/-- The engine's turn; with PENDING empty it has no step (70_reset_and_hazards.md R230). -/
def engineTurn (s : State) : Host.Outcome State Fault Refusal :=
  match s.pending with
  | none => .fault .noStep
  | some w => completeOutcome (execWord w s)

end Sys2Proof.Machine
end

