-- ==== Sys2Proof/Machine/Step.lean ====
section
/-! DEFINITION. One step of the machine: the next bus event or engine turn, in the total order that the state holds
(20_memory.md R68, R69; 70_reset_and_hazards.md R230). -/

namespace Sys2Proof.Machine

/-- The next event happens; when no event is left, the engine takes its turn (70_reset_and_hazards.md R230, R236). -/
def step (s : State) : Host.Outcome State Fault Refusal :=
  match s.inputs.head? with
  | none => engineTurn s.popInput
  | some .engine => engineTurn s.popInput
  | some (.memRead host addr size) => hostRead host addr size s.popInput
  | some (.memWrite _ addr size w) => hostWrite addr size w s.popInput
  | some .hwReset => .next (hardwareReset s.popInput)

/-- The word of an opcode-table row as a command that the bus has just accepted, with the engine's turn next: PENDING is
where the engine takes its next command from (10_state.md R42, 70_reset_and_hazards.md R230; log entry 5). -/
def State.withFetchWord (s : State) (nbits w : Nat) : State :=
  { s with pending := some (tableWord nbits w), inputs := .engine :: s.inputs }

end Sys2Proof.Machine
end

