-- ==== Sys2Proof/WellFormed.lean ====
section
/-! DEFINITION. Which operand values are legal. Every value of every field is, with two exceptions (30_encoding.md R82):
a `RDPAL` index of 192 or more (44_control_and_readback.md R169) and a `CONFIG` whose fields break R163. An
ill-formed command still has a word and a meaning: it ends in the error its rule names. -/

namespace Sys2Proof

/-- The operand values are legal on hardware with the given `PAL_W` (30_encoding.md R82). -/
def Instr.wellFormed (p : PalW) : Instr → Bool
  | .nop => true
  | .reset => true
  | .config rw ro gw go bw bo => (Machine.configLayout rw ro gw go bw bo).legal p.bits
  | .observe _ => true
  | .build => true
  | .lookup _ => true
  | .rdcoarse _ _ => true
  | .rdfine _ _ => true
  | .rdmap _ => true
  | .rdsel _ => true
  | .rdpal idx => decide (idx.toNat < 192)

end Sys2Proof
end

