-- ==== Sys2Proof/Safety.lean ====
section
/-! DEFINITION. The terms that claims use: sums over the grids, what a bucket holds as exact numbers, the machine's
invariant (10_state.md R32, R44, R45; 41_accumulator.md R109), which command a step runs, and the block without its
hosts. -/

namespace Sys2Proof.Machine

/-- A sum over the 4096 fine keys. -/
@[irreducible] def sumFine (f : FineKey → Nat) : Nat := ∑ k : Fin 4096, f (BitVec.ofFin k)

/-- A sum over the 64 coarse keys. -/
@[irreducible] def sumCoarse (f : CoarseKey → Nat) : Nat := ∑ c : Fin 64, f (BitVec.ofFin c)

/-- A sum over the 128 ranks. -/
@[irreducible] def sumRanks (f : Rank → Nat) : Nat := ∑ r : Fin 128, f (BitVec.ofFin r)

/-- A field of a bucket as an exact number. -/
def Bucket.value (b : Bucket) : BucketField → Nat
  | .count => b.count.toNat
  | .red => b.rSum.toNat
  | .green => b.gSum.toNat
  | .blue => b.bSum.toNat

/-- No sum exceeds its channel's maximum times the count (41_accumulator.md R109). -/
structure Bucket.Bounded (b : Bucket) : Prop where
  red : b.rSum.toNat ≤ 31 * b.count.toNat
  green : b.gSum.toNat ≤ 63 * b.count.toNat
  blue : b.bSum.toNat ≤ 31 * b.count.toNat

/-- Fine key `a` precedes `b` in the selection order (42_palette_builder.md R122). -/
def State.precedes (s : State) (a b : FineKey) : Prop :=
  (s.fineAt b).count.toNat < (s.fineAt a).count.toNat ∨
    ((s.fineAt a).count.toNat = (s.fineAt b).count.toNat ∧ a.toNat < b.toNat)

/-- Whether a fine key is one of SEL's 128 keys (10_state.md R40). -/
def State.selected (s : State) (k : FineKey) : Bool := s.sel.toList.contains k

/-- What holds in phase ACCUM (10_state.md R44). -/
structure State.AccumInv (s : State) : Prop where
  coarse_is_children : ∀ c f, (s.coarseAt c).value f =
    sumFine fun k => if parent k = c then (s.fineAt k).value f else 0
  total_is_coarse : s.total.toNat = sumCoarse fun c => (s.coarseAt c).count.toNat
  total_is_fine : s.total.toNat = sumFine fun k => (s.fineAt k).count.toNat
  map_unassigned : ∀ k, s.mapAt k = ⟨false, 0#8⟩

/-- What holds in phase BUILT (10_state.md R45; 42_palette_builder.md R122, R124, R127). -/
structure State.BuiltInv (s : State) : Prop where
  sel_distinct : ∀ r r', s.selAt r = s.selAt r' → r = r'
  sel_in_order : ∀ r r' : Rank, r.toNat < r'.toNat → s.precedes (s.selAt r) (s.selAt r')
  sel_first : ∀ r k, s.selected k = false → s.precedes (s.selAt r) k
  map_selected : ∀ r : Rank, s.mapAt (s.selAt r) = ⟨true, 64#8 + r.setWidth 8⟩
  map_unselected : ∀ k, s.selected k = false → s.mapAt k = ⟨false, 0#8⟩
  coarse_is_unselected : ∀ c f, (s.coarseAt c).value f =
    sumFine fun k => if parent k = c ∧ s.selected k = false then (s.fineAt k).value f else 0
  conserved : s.total.toNat = (sumCoarse fun c => (s.coarseAt c).count.toNat) +
    sumRanks fun r => (s.fineAt (s.selAt r)).count.toNat

/-- The machine's invariant: it holds after a hardware reset and every step keeps it. -/
structure State.Inv (s : State) : Prop where
  /-- Whenever CFG_VALID = 1, PACKCFG is legal (10_state.md R32). -/
  config_legal : s.cfgValid = true → (layoutOf s.packcfg).legal s.params.palW.bits = true
  /-- PACKCFG's bits without a field read as 0 (10_state.md R32). -/
  config_reserved : s.packcfg &&& 0xF0000001#32 = 0#32
  /-- Without an accepted CONFIG, PACKCFG has its reset value (10_state.md R32, R43). -/
  config_absent : s.cfgValid = false → s.packcfg = 0#32
  /-- A non-zero LASTERR has set ERRSEEN (10_state.md R27). -/
  error_seen : s.lastErr ≠ .ok → s.errSeen = true
  /-- A palette entry is `PAL_W` bits (10_state.md R41). -/
  palette_width : ∀ i : Fin 192, (s.palAt i.val).toNat < 2 ^ s.params.palW.bits
  /-- Before the first RESET nothing has been counted or read (10_state.md R31, R34). -/
  uninit_idle : s.phase = .uninit → s.total = 0#32 ∧ s.result = 0#64
  accum : s.phase = .accum → s.AccumInv
  built : s.phase = .built → s.BuiltInv
  /-- No sum leaves its bound (41_accumulator.md R109). -/
  bounded : s.phase ≠ .uninit → (∀ k, (s.fineAt k).Bounded) ∧ ∀ c, (s.coarseAt c).Bounded

/-- The engine has the next turn (70_reset_and_hazards.md R230). -/
def State.engineNext (s : State) : Prop := s.inputs = [] ∨ s.inputs.head? = some .engine

/-- The next step is the engine's execution of this command (70_reset_and_hazards.md R230). -/
def State.runs (s : State) (i : Instr) : Prop := s.engineNext ∧ ∃ w, s.pending = some w ∧ decode w = .ok i

/-- The next step is a hardware reset (70_reset_and_hazards.md R220). -/
def State.resetNext (s : State) : Prop := s.inputs.head? = some .hwReset

/-- The next step is a host's write to CMD (20_memory.md R64). -/
def State.cmdWriteNext (s : State) : Prop :=
  ∃ host w, s.inputs.head? = some (.memWrite host (base s.params) 4 w)

/-- The block without the model's own record of its hosts. -/
def State.block (s : State) : State := { s with inputs := [], replies := [], draws := 0 }

/-- An access of the register window that the spec defines (20_memory.md R60). -/
def BusEvent.isRead (p : Params) : BusEvent → Bool
  | .memRead _ addr size => (accessedReg p addr size).isSome
  | _ => false

/-- Commands executed one after another, stopping at the first that has no next state. -/
def execAll : List Instr → State → Host.Outcome State Fault Refusal
  | [], s => .next s
  | i :: rest, s =>
    match exec i s with
    | .next t => execAll rest t
    | .fault r => .fault r
    | .refused r => .refused r

/-- A safe run: no host access falls outside the interface (20_memory.md R66). -/
def State.SafeRun (s : State) : Prop := ∀ n, core.run n s ≠ .fault .undefinedAccess

end Sys2Proof.Machine
end

