-- ==== Sys2Proof/Certificates/Slice0/Obligations.lean ====
section
/-! DEFINITION. The statements for the provers. -/

open Sys2Proof Sys2Proof.Machine

/-- Decoding a command's word gives the command back, with every operand at every value (30_encoding.md R81, R82, R86). -/
def Obligations.DecodeOfEncodeIsTheCommand : Prop := ∀ i : Instr, decode (encode i) = .ok i

/-- A word that decodes is the word of what it decodes to: each word has one meaning (30_encoding.md R83, R86). -/
def Obligations.EncodeOfDecodedWordIsTheWord : Prop := ∀ (w : Word) (i : Instr), decode w = .ok i → encode i = w

/-- A word encodes a command exactly when `(w & mask) = match`, row by row of the opcode map (30_encoding.md R83). -/
def Obligations.WordEncodesCommandExactlyWhenMaskMatches : Prop := ∀ w : Word,
  ((∃ i, decode w = .ok i ∧ i.op = .nop) ↔ w &&& 0xFFFFFFFF#32 = 0x00000000#32) ∧
  ((∃ i, decode w = .ok i ∧ i.op = .reset) ↔ w &&& 0xFFFFFFFF#32 = 0x10000000#32) ∧
  ((∃ i, decode w = .ok i ∧ i.op = .config) ↔ w &&& 0xF0000001#32 = 0x20000000#32) ∧
  ((∃ i, decode w = .ok i ∧ i.op = .observe) ↔ w &&& 0xFFFF0000#32 = 0x30000000#32) ∧
  ((∃ i, decode w = .ok i ∧ i.op = .build) ↔ w &&& 0xFFFFFFFF#32 = 0x40000000#32) ∧
  ((∃ i, decode w = .ok i ∧ i.op = .lookup) ↔ w &&& 0xFFFF0000#32 = 0x50000000#32) ∧
  ((∃ i, decode w = .ok i ∧ i.op = .rdcoarse) ↔ w &&& 0xFFFFCFC0#32 = 0x60000000#32) ∧
  ((∃ i, decode w = .ok i ∧ i.op = .rdfine) ↔ w &&& 0xFFFFC000#32 = 0x70000000#32) ∧
  ((∃ i, decode w = .ok i ∧ i.op = .rdmap) ↔ w &&& 0xFFFFF000#32 = 0x80000000#32) ∧
  ((∃ i, decode w = .ok i ∧ i.op = .rdsel) ↔ w &&& 0xFFFFFF80#32 = 0x90000000#32) ∧
  ((∃ i, decode w = .ok i ∧ i.op = .rdpal) ↔ w &&& 0xFFFFFF00#32 = 0xA0000000#32)

/-- Every operand is an unsigned field taken straight from the word, the fields as numbers (30_encoding.md R82). -/
def Obligations.OperandsAreFieldsOfTheWord : Prop := ∀ (w : Word) (i : Instr), decode w = .ok i →
  (∀ rw ro gw go bw bo, i = .config rw ro gw go bw bo →
    rw.toNat = w.toNat / 2 ^ 24 % 16 ∧ ro.toNat = w.toNat / 2 ^ 19 % 32 ∧ gw.toNat = w.toNat / 2 ^ 15 % 16 ∧
    go.toNat = w.toNat / 2 ^ 10 % 32 ∧ bw.toNat = w.toNat / 2 ^ 6 % 16 ∧ bo.toNat = w.toNat / 2 % 32) ∧
  (∀ pix, i = .observe pix ∨ i = .lookup pix → pix.toNat = w.toNat % 65536) ∧
  (∀ idx fld, i = .rdcoarse idx fld → idx.toNat = w.toNat % 64 ∧
    fld = [BucketField.count, .red, .green, .blue].getD (w.toNat / 4096 % 4) .count) ∧
  (∀ idx fld, i = .rdfine idx fld → idx.toNat = w.toNat % 4096 ∧
    fld = [BucketField.count, .red, .green, .blue].getD (w.toNat / 4096 % 4) .count) ∧
  (∀ idx, i = .rdmap idx → idx.toNat = w.toNat % 4096) ∧
  (∀ rank, i = .rdsel rank → rank.toNat = w.toNat % 128) ∧
  (∀ idx, i = .rdpal idx → idx.toNat = w.toNat % 256)

/-- A word with a 1 in a bit that its format marks 0 is illegal, whatever the phase, and nothing but LASTERR and ERRSEEN
changes (30_encoding.md R81, R84). -/
def Obligations.ReservedBitsRaiseIllegal : Prop := ∀ (s : State) (w : Word),
  ((w.extractLsb' 28 4 = 0x0#4 ∨ w.extractLsb' 28 4 = 0x1#4 ∨ w.extractLsb' 28 4 = 0x4#4) ∧ w.extractLsb' 0 28 ≠ 0#28) ∨
  (w.extractLsb' 28 4 = 0x2#4 ∧ w.extractLsb' 0 1 ≠ 0#1) ∨
  ((w.extractLsb' 28 4 = 0x3#4 ∨ w.extractLsb' 28 4 = 0x5#4) ∧ w.extractLsb' 16 12 ≠ 0#12) ∨
  (w.extractLsb' 28 4 = 0x6#4 ∧ (w.extractLsb' 14 14 ≠ 0#14 ∨ w.extractLsb' 6 6 ≠ 0#6)) ∨
  (w.extractLsb' 28 4 = 0x7#4 ∧ w.extractLsb' 14 14 ≠ 0#14) ∨
  (w.extractLsb' 28 4 = 0x8#4 ∧ w.extractLsb' 12 16 ≠ 0#16) ∨
  (w.extractLsb' 28 4 = 0x9#4 ∧ w.extractLsb' 7 21 ≠ 0#21) ∨
  (w.extractLsb' 28 4 = 0xA#4 ∧ w.extractLsb' 8 20 ≠ 0#20) →
  execWord w s = .next { s with lastErr := .illegal, errSeen := true }

/-- A word whose OP is 0xB to 0xF raises ERR_ILLEGAL and nothing else changes (30_encoding.md R85). -/
def Obligations.ReservedOpcodeRaisesIllegal : Prop := ∀ (s : State) (w : Word), 0xB ≤ w.toNat / 2 ^ 28 →
  execWord w s = .next { s with lastErr := .illegal, errSeen := true }

/-- Words written out from the formats, the pseudo-commands among them, decode to their commands (30_encoding.md R81, R88;
95_test_vectors.md R-1). -/
def Obligations.WrittenOutWordsDecode : Prop :=
  decode 0x00000000#32 = .ok .nop ∧ decode 0x10000000#32 = .ok .reset ∧ decode 0x40000000#32 = .ok .build ∧
  decode 0x255B1540#32 = .ok (.config 5#4 11#5 6#4 5#5 5#4 0#5) ∧
  decode 0x26631980#32 = .ok (.config 6#4 12#5 6#4 6#5 6#4 0#5) ∧
  decode 0x23298880#32 = .ok (.config 3#4 5#5 3#4 2#5 2#4 0#5) ∧
  decode 0x30001234#32 = .ok (.observe 0x1234#16) ∧ decode 0x50000002#32 = .ok (.lookup 2#16) ∧
  decode 0x60002006#32 = .ok (.rdcoarse 6#6 .green) ∧ decode 0x7000014A#32 = .ok (.rdfine 330#12 .count) ∧
  decode 0x80000F00#32 = .ok (.rdmap 0xF00#12) ∧ decode 0x9000007F#32 = .ok (.rdsel 127#7) ∧
  decode 0xA00000BF#32 = .ok (.rdpal 191#8)

/-- On a byte-addressed bus, lane `j` carries bits `[8j+7 : 8j]`, and the lanes give the word back (20_memory.md R62). -/
def Obligations.LanesAreLittleEndian : Prop := ∀ w : Word,
  (∀ j, j < 4 → (laneByte w j).toNat = w.toNat / 2 ^ (8 * j) % 256) ∧
  wordOfLanes (laneByte w 0) (laneByte w 1) (laneByte w 2) (laneByte w 3) = w

/-- A step runs the decoded command: in the engine's turn the pending word's command is executed, and PENDING empties
(70_reset_and_hazards.md R230). The event that the step takes off its list is the model's own (log entry 1). -/
def Obligations.EngineStepExecutesThePendingCommand : Prop := ∀ (s : State) (w : Word) (i : Instr),
  s.engineNext → s.pending = some w → decode w = .ok i →
  ∃ t, exec i s.popInput = .next t ∧ step s = .next { t with pending := none }

/-- A pending illegal word ends in ERR_ILLEGAL and completes like any other (30_encoding.md R84 to R86, 60_exceptions.md
R192). -/
def Obligations.EngineStepRejectsAnIllegalWord : Prop := ∀ (s : State) (w : Word) (x : Illegal),
  s.engineNext → s.pending = some w → decode w = .error x →
  step s = .next { s.popInput with pending := none, lastErr := .illegal, errSeen := true }

/-- A step always has a next state, but for two: the engine's turn with PENDING empty, and a host access outside the
interface (70_reset_and_hazards.md R230, 20_memory.md R66). No command is refused. That these two are faults that stop the
machine is the model's choice (log entries 6 and 7). -/
def Obligations.StepStopsOnlyWhenIdleOrOutsideTheInterface : Prop := ∀ s : State,
  (∃ t, step s = .next t) ∨
  (step s = .fault .noStep ∧ s.engineNext ∧ s.pending = none) ∨
  (step s = .fault .undefinedAccess ∧ ∃ host addr size w,
    (s.inputs.head? = some (.memRead host addr size) ∨ s.inputs.head? = some (.memWrite host addr size w)) ∧
    ¬ (size = 4 ∧ ∃ off, off % 4 = 0 ∧ off ≤ 0x3C ∧ addr = base s.params + off))

/-- `NOP` does nothing but write 0 to LASTERR, in every phase (44_control_and_readback.md R160). -/
def Obligations.NopClearsOnlyTheLastError : Prop := ∀ s : State, exec .nop s = .next { s with lastErr := .ok }

/-- `RESET` zeroes both grids and the map, sets TOTAL to 0 and the phase to ACCUM in every phase, and leaves the rest
(41_accumulator.md R100). -/
def Obligations.ResetClearsTheImage : Prop := ∀ s : State, ∃ t, exec .reset s = .next t ∧
  (∀ k, t.coarseAt k = ⟨0#32, 0#38, 0#38, 0#38⟩) ∧ (∀ k, t.fineAt k = ⟨0#32, 0#38, 0#38, 0#38⟩) ∧
  (∀ k, t.mapAt k = ⟨false, 0#8⟩) ∧
  t = { s with coarse := t.coarse, fine := t.fine, map := t.map, total := 0#32, phase := .accum, lastErr := .ok }

/-- `OBSERVE` adds one to the count and the raw channel values to the sums of the pixel's coarse bucket and of its fine
bucket, and one to TOTAL; every other bucket and all else stays (41_accumulator.md R105, R107). -/
def Obligations.ObserveAddsThePixelToItsTwoBuckets : Prop := ∀ (s : State) (pix : Pixel),
  s.phase = .accum → s.total ≠ 0xFFFFFFFF#32 → ∃ t, exec (.observe pix) s = .next t ∧
  (t.coarseAt (coarseKey pix)).count = (s.coarseAt (coarseKey pix)).count + 1#32 ∧
  (t.coarseAt (coarseKey pix)).rSum = (s.coarseAt (coarseKey pix)).rSum + (pix.extractLsb' 11 5).setWidth 38 ∧
  (t.coarseAt (coarseKey pix)).gSum = (s.coarseAt (coarseKey pix)).gSum + (pix.extractLsb' 5 6).setWidth 38 ∧
  (t.coarseAt (coarseKey pix)).bSum = (s.coarseAt (coarseKey pix)).bSum + (pix.extractLsb' 0 5).setWidth 38 ∧
  (t.fineAt (fineKey pix)).count = (s.fineAt (fineKey pix)).count + 1#32 ∧
  (t.fineAt (fineKey pix)).rSum = (s.fineAt (fineKey pix)).rSum + (pix.extractLsb' 11 5).setWidth 38 ∧
  (t.fineAt (fineKey pix)).gSum = (s.fineAt (fineKey pix)).gSum + (pix.extractLsb' 5 6).setWidth 38 ∧
  (t.fineAt (fineKey pix)).bSum = (s.fineAt (fineKey pix)).bSum + (pix.extractLsb' 0 5).setWidth 38 ∧
  (∀ k, k ≠ coarseKey pix → t.coarseAt k = s.coarseAt k) ∧ (∀ k, k ≠ fineKey pix → t.fineAt k = s.fineAt k) ∧
  t = { s with coarse := t.coarse, fine := t.fine, total := s.total + 1#32, lastErr := .ok }

/-- An `OBSERVE` at TOTAL = 2^32 - 1 is refused with ERR_OVERFLOW and accumulates nothing (41_accumulator.md R108). -/
def Obligations.ObserveIsRefusedAtThePixelLimit : Prop := ∀ (s : State) (pix : Pixel),
  s.phase = .accum → s.total = 0xFFFFFFFF#32 →
  exec (.observe pix) s = .next { s with lastErr := .overflow, errSeen := true }

/-- In a state that meets the invariant, `OBSERVE`'s additions are exact: nothing wraps (00_scope.md R9,
41_accumulator.md R109). -/
def Obligations.ObserveNeverWraps : Prop := ∀ (s : State) (pix : Pixel),
  s.Inv → s.phase = .accum → s.total ≠ 0xFFFFFFFF#32 → ∃ t, exec (.observe pix) s = .next t ∧
  t.total.toNat = s.total.toNat + 1 ∧
  ∀ b b' : Bucket, (b = s.coarseAt (coarseKey pix) ∧ b' = t.coarseAt (coarseKey pix)) ∨
    (b = s.fineAt (fineKey pix) ∧ b' = t.fineAt (fineKey pix)) →
    b'.value .count = b.value .count + 1 ∧ b'.value .red = b.value .red + pix.toNat / 2048 ∧
    b'.value .green = b.value .green + pix.toNat / 32 % 64 ∧ b'.value .blue = b.value .blue + pix.toNat % 32

/-- The key functions and the parent relation as numbers and as bits (00_scope.md R14, R15). -/
def Obligations.KeysAreTheTopBitsOfEachChannel : Prop := ∀ (p : Pixel) (k : FineKey),
  (red p).toNat = p.toNat / 2048 ∧ (green p).toNat = p.toNat / 32 % 64 ∧ (blue p).toNat = p.toNat % 32 ∧
  (coarseKey p).toNat = (red p).toNat / 8 * 16 + (green p).toNat / 16 * 4 + (blue p).toNat / 8 ∧
  (fineKey p).toNat = (red p).toNat / 2 * 256 + (green p).toNat / 4 * 16 + (blue p).toNat / 2 ∧
  (parent k).toNat = k.toNat / 1024 * 16 + k.toNat / 64 % 4 * 4 + k.toNat / 4 % 4 ∧
  coarseKey p = p.extractLsb' 14 2 ++ p.extractLsb' 9 2 ++ p.extractLsb' 3 2 ∧
  fineKey p = p.extractLsb' 12 4 ++ p.extractLsb' 7 4 ++ p.extractLsb' 1 4

/-- The parent of a pixel's fine key is its coarse key, and a fine key ignores exactly the bits `p[11]`, `p[6:5]` and `p[0]`
(00_scope.md R16). -/
def Obligations.ParentOfFineKeyIsCoarseKey : Prop :=
  (∀ p : Pixel, parent (fineKey p) = coarseKey p) ∧
  (∀ p q : Pixel, fineKey p = fineKey q ↔ p &&& 0xF79E#16 = q &&& 0xF79E#16)

/-- The state after any sequence of successful `OBSERVE`s depends only on the multiset of their pixels
(41_accumulator.md R106). -/
def Obligations.ObserveOrderDoesNotMatter : Prop := ∀ (s : State) (ps qs : List Pixel), ps.Perm qs →
  s.phase = .accum → s.total.toNat + ps.length ≤ 0xFFFFFFFF →
  execAll (ps.map Instr.observe) s = execAll (qs.map Instr.observe) s ∧
  ∃ t, execAll (ps.map Instr.observe) s = .next t ∧ t.phase = .accum ∧ t.total.toNat = s.total.toNat + ps.length

/-- `BUILD` selects 128 distinct fine keys, the largest counts first and the lower key first among equal counts, each before
every key it leaves out (42_palette_builder.md R122, R123, R124). -/
def Obligations.BuildSelectsTheMostPopulatedBuckets : Prop := ∀ s : State, s.phase = .accum → s.cfgValid = true →
  ∃ t, exec .build s = .next t ∧
  (∀ r r', t.selAt r = t.selAt r' → r = r') ∧
  (∀ r r' : Rank, r.toNat < r'.toNat →
    (s.fineAt (t.selAt r')).count.toNat < (s.fineAt (t.selAt r)).count.toNat ∨
    ((s.fineAt (t.selAt r)).count = (s.fineAt (t.selAt r')).count ∧ (t.selAt r).toNat < (t.selAt r').toNat)) ∧
  (∀ (r : Rank) (k : FineKey), (∀ r', t.selAt r' ≠ k) →
    (s.fineAt k).count.toNat < (s.fineAt (t.selAt r)).count.toNat ∨
    ((s.fineAt (t.selAt r)).count = (s.fineAt k).count ∧ (t.selAt r).toNat < k.toNat))

/-- `BUILD` subtracts every selected fine bucket from its parent coarse bucket, field by field and exactly: no subtraction
underflows (42_palette_builder.md R125, R126, R127). -/
def Obligations.BuildSubtractsSelectedBucketsFromTheirParents : Prop := ∀ s : State,
  s.Inv → s.phase = .accum → s.cfgValid = true → ∃ t, exec .build s = .next t ∧
  ∀ (c : CoarseKey) (f : BucketField), (t.coarseAt c).value f +
    (sumRanks fun r => if parent (t.selAt r) = c then (s.fineAt (t.selAt r)).value f else 0) = (s.coarseAt c).value f

/-- `BUILD`'s palette: entries 0 to 63 are the packed averages of the corrected coarse buckets, entries 64 to 191 those of
the selected fine buckets by rank, each packed value exact; and each selected key's map entry is its palette index
(42_palette_builder.md R128 to R131). -/
def Obligations.BuildPacksTheAverages : Prop := ∀ s : State, s.Inv → s.phase = .accum → s.cfgValid = true →
  ∃ t, exec .build s = .next t ∧
  (∀ c : CoarseKey, (t.palAt c.toNat).toNat = (layoutOf s.packcfg).pack
    (if (t.coarseAt c).count = 0#32 then (0, 0, 0) else
      ((t.coarseAt c).rSum.toNat / (t.coarseAt c).count.toNat, (t.coarseAt c).gSum.toNat / (t.coarseAt c).count.toNat,
        (t.coarseAt c).bSum.toNat / (t.coarseAt c).count.toNat))) ∧
  (∀ r : Rank, (t.palAt (64 + r.toNat)).toNat = (layoutOf s.packcfg).pack
    (if (s.fineAt (t.selAt r)).count = 0#32 then (0, 0, 0) else
      ((s.fineAt (t.selAt r)).rSum.toNat / (s.fineAt (t.selAt r)).count.toNat,
        (s.fineAt (t.selAt r)).gSum.toNat / (s.fineAt (t.selAt r)).count.toNat,
        (s.fineAt (t.selAt r)).bSum.toNat / (s.fineAt (t.selAt r)).count.toNat)) ∧
    t.mapAt (t.selAt r) = ⟨true, BitVec.ofNat 8 (64 + r.toNat)⟩)

/-- `BUILD` ends in BUILT and changes only C, SEL, PAL, MAP, the phase and LASTERR; F stays, and so does the map entry of
every key it does not select (42_palette_builder.md R120, R133, R134; 10_state.md R46). -/
def Obligations.BuildLeavesTheFineGridAndTheRest : Prop := ∀ s : State, s.phase = .accum → s.cfgValid = true →
  ∃ t, exec .build s = .next t ∧ (∀ k, (∀ r, t.selAt r ≠ k) → t.mapAt k = s.mapAt k) ∧
  t = { s with coarse := t.coarse, sel := t.sel, pal := t.pal, map := t.map, phase := .built, lastErr := .ok }

/-- After a `BUILD` exactly 128 map entries are assigned and 3968 are not (42_palette_builder.md R135). -/
def Obligations.BuildAssignsExactly128Entries : Prop := ∀ s : State, s.Inv → s.phase = .accum → s.cfgValid = true →
  ∃ t, exec .build s = .next t ∧ (sumFine fun k => if (t.mapAt k).v = true then 1 else 0) = 128 ∧
  (sumFine fun k => if (t.mapAt k).v = true then 0 else 1) = 3968

/-- After a `BUILD` the corrected coarse counts and the selected fine counts sum to TOTAL: no pixel is lost or counted twice
(10_state.md R45, 42_palette_builder.md R135). -/
def Obligations.BuildConservesThePixelCount : Prop := ∀ s : State, s.Inv → s.phase = .accum → s.cfgValid = true →
  ∃ t, exec .build s = .next t ∧ t.total = s.total ∧
  t.total.toNat = (sumCoarse fun c => (t.coarseAt c).count.toNat) + sumRanks fun r => (t.fineAt (t.selAt r)).count.toNat

/-- `BUILD` without an accepted configuration raises ERR_NOCFG and changes nothing else; with one, in a state that meets the
invariant, the layout is legal (42_palette_builder.md R121). -/
def Obligations.BuildNeedsAnAcceptedConfiguration : Prop := ∀ s : State,
  (s.phase = .accum → s.cfgValid = false → exec .build s = .next { s with lastErr := .noCfg, errSeen := true }) ∧
  (s.Inv → s.cfgValid = true → (layoutOf s.packcfg).legal s.params.palW.bits = true)

/-- The result of `BUILD` is a function of F, C and PACKCFG alone (for one PAL_W): whatever else two ACCUM states that meet
the invariant hold, equal F, C and PACKCFG give equal SEL, PAL, MAP and corrected C (42_palette_builder.md R137). -/
def Obligations.BuildIsAFunctionOfTheGridsAndTheLayout : Prop := ∀ s s' : State, s.Inv → s'.Inv →
  s.phase = .accum → s'.phase = .accum → s.cfgValid = true → s'.cfgValid = true →
  s.fine = s'.fine → s.coarse = s'.coarse → s.packcfg = s'.packcfg → s.params.palW = s'.params.palW →
  ∃ t t', exec .build s = .next t ∧ exec .build s' = .next t' ∧
    t.sel = t'.sel ∧ t.pal = t'.pal ∧ t.map = t'.map ∧ t.coarse = t'.coarse

/-- When `BUILD` selects an empty bucket, every non-empty one is selected, the empty one's palette entry is 0, and every
pixel of it looks up to 64 plus its rank, not to its coarse key (42_palette_builder.md R136, 43_index_query.md R153). -/
def Obligations.EmptySelectedBucketsAreBlackAndLookedUp : Prop := ∀ s : State, s.phase = .accum → s.cfgValid = true →
  ∃ t, exec .build s = .next t ∧ ∀ r : Rank, (s.fineAt (t.selAt r)).count = 0#32 →
    (∀ k, (s.fineAt k).count ≠ 0#32 → ∃ r', t.selAt r' = k) ∧ t.palAt (64 + r.toNat) = 0#32 ∧
    ∀ p, fineKey p = t.selAt r → ∃ u, exec (.lookup p) t = .next u ∧ u.result = BitVec.ofNat 64 (64 + r.toNat)

/-- `LOOKUP` answers with the fine map's entry if it is assigned, else with the coarse key, and writes nothing but RESULT
and LASTERR (43_index_query.md R150, R152). -/
def Obligations.LookupAnswersWithTheMapOrTheCoarseKey : Prop := ∀ (s : State) (p : Pixel), s.phase = .built →
  ((s.mapAt (fineKey p)).v = true →
    exec (.lookup p) s = .next { s with result := (s.mapAt (fineKey p)).idx.setWidth 64, lastErr := .ok }) ∧
  ((s.mapAt (fineKey p)).v = false →
    exec (.lookup p) s = .next { s with result := (coarseKey p).setWidth 64, lastErr := .ok })

/-- In BUILT, `LOOKUP` succeeds for every pixel with a value in 0..191: 64 plus the rank of the pixel's fine key if that is
selected, else its coarse key (43_index_query.md R151). -/
def Obligations.LookupIsTotalAndInRange : Prop := ∀ (s : State) (p : Pixel), s.Inv → s.phase = .built →
  ∃ t, exec (.lookup p) s = .next t ∧ t.lastErr = .ok ∧ t.result.toNat < 192 ∧
  (64 ≤ t.result.toNat ↔ ∃ r, s.selAt r = fineKey p) ∧
  (∀ r, s.selAt r = fineKey p → t.result.toNat = 64 + r.toNat) ∧
  ((∀ r, s.selAt r ≠ fineKey p) → t.result.toNat = (coarseKey p).toNat)

/-- Any number of `LOOKUP`s in any order leave all but RESULT and LASTERR as they were, and the last one's answer is what it
is without the others (43_index_query.md R152). -/
def Obligations.LookupsDoNotDisturbOneAnother : Prop := ∀ (s : State) (ps : List Pixel) (p : Pixel), s.phase = .built →
  ∃ t u, execAll ((ps ++ [p]).map Instr.lookup) s = .next t ∧ exec (.lookup p) s = .next u ∧ t = u ∧
    t = { s with result := t.result, lastErr := .ok }

/-- `CONFIG` accepts a layout exactly when the four conditions hold: widths of at least 1, a width sum of PAL_W, every field
inside PAL_W bits, the three bit ranges disjoint. It then writes PACKCFG and CFG_VALID; otherwise it raises ERR_BADCFG
and PACKCFG and CFG_VALID stay (44_control_and_readback.md R162, R163). -/
def Obligations.ConfigAcceptsExactlyTheLegalLayouts : Prop :=
  ∀ (s : State) (rw : BitVec 4) (ro : BitVec 5) (gw : BitVec 4) (go : BitVec 5) (bw : BitVec 4) (bo : BitVec 5)
    (legal : Prop),
  (legal ↔ (1 ≤ rw.toNat ∧ 1 ≤ gw.toNat ∧ 1 ≤ bw.toNat) ∧
    rw.toNat + gw.toNat + bw.toNat = s.params.palW.bits ∧
    (ro.toNat + rw.toNat ≤ s.params.palW.bits ∧ go.toNat + gw.toNat ≤ s.params.palW.bits ∧
      bo.toNat + bw.toNat ≤ s.params.palW.bits) ∧
    (∀ b, ¬ (ro.toNat ≤ b ∧ b < ro.toNat + rw.toNat ∧ go.toNat ≤ b ∧ b < go.toNat + gw.toNat)) ∧
    (∀ b, ¬ (ro.toNat ≤ b ∧ b < ro.toNat + rw.toNat ∧ bo.toNat ≤ b ∧ b < bo.toNat + bw.toNat)) ∧
    (∀ b, ¬ (go.toNat ≤ b ∧ b < go.toNat + gw.toNat ∧ bo.toNat ≤ b ∧ b < bo.toNat + bw.toNat))) →
  (legal → exec (.config rw ro gw go bw bo) s = .next { s with
    packcfg := encode (.config rw ro gw go bw bo) &&& 0x0FFFFFFE#32, cfgValid := true, lastErr := .ok }) ∧
  (¬ legal → exec (.config rw ro gw go bw bo) s = .next { s with lastErr := .badCfg, errSeen := true })

/-- PACKCFG uses the bit positions of the `CONFIG` word: what an accepted `CONFIG` stores reads back as its operands, and
the bits without a field are 0 (10_state.md R32). -/
def Obligations.AcceptedLayoutIsTheOneConfigured : Prop :=
  ∀ (rw : BitVec 4) (ro : BitVec 5) (gw : BitVec 4) (go : BitVec 5) (bw : BitVec 4) (bo : BitVec 5),
  layoutOf (encode (.config rw ro gw go bw bo) &&& 0x0FFFFFFE#32) =
    ⟨rw.toNat, ro.toNat, gw.toNat, go.toNat, bw.toNat, bo.toNat⟩ ∧
  (encode (.config rw ro gw go bw bo) &&& 0x0FFFFFFE#32) &&& 0xF0000001#32 = 0#32

/-- A legal layout's three fields tile the bits below PAL_W: each bit lies in exactly one field
(44_control_and_readback.md R163). -/
def Obligations.LegalLayoutTilesTheEntry : Prop := ∀ (l : Layout) (n b : Nat), l.legal n = true →
  (b < n ↔ (l.ro ≤ b ∧ b < l.ro + l.rw) ∨ (l.go ≤ b ∧ b < l.go + l.gw) ∨ (l.bo ≤ b ∧ b < l.bo + l.bw)) ∧
  ¬ ((l.ro ≤ b ∧ b < l.ro + l.rw) ∧ (l.go ≤ b ∧ b < l.go + l.gw)) ∧
  ¬ ((l.ro ≤ b ∧ b < l.ro + l.rw) ∧ (l.bo ≤ b ∧ b < l.bo + l.bw)) ∧
  ¬ ((l.go ≤ b ∧ b < l.go + l.gw) ∧ (l.bo ≤ b ∧ b < l.bo + l.bw))

/-- Packing places each converted mean in its own field and stays inside PAL_W bits; widening appends zero bits and
narrowing drops the low ones; black packs to 0 (42_palette_builder.md R131, R132). -/
def Obligations.PackPlacesEachChannelInItsField : Prop := ∀ (l : Layout) (n ar ag ab : Nat), l.legal n = true →
  ar < 32 → ag < 64 → ab < 32 →
  l.pack (ar, ag, ab) < 2 ^ n ∧ l.pack (0, 0, 0) = 0 ∧
  l.pack (ar, ag, ab) / 2 ^ l.ro % 2 ^ l.rw = (if 5 ≤ l.rw then ar * 2 ^ (l.rw - 5) else ar / 2 ^ (5 - l.rw)) ∧
  l.pack (ar, ag, ab) / 2 ^ l.go % 2 ^ l.gw = (if 6 ≤ l.gw then ag * 2 ^ (l.gw - 6) else ag / 2 ^ (6 - l.gw)) ∧
  l.pack (ar, ag, ab) / 2 ^ l.bo % 2 ^ l.bw = (if 5 ≤ l.bw then ab * 2 ^ (l.bw - 5) else ab / 2 ^ (5 - l.bw))

/-- A bucket's channel means are in 0..31, 0..63 and 0..31 where its sums are within their bounds, and the zero colour
where its count is 0 (42_palette_builder.md R128). -/
def Obligations.AveragesAreInTheChannelRanges : Prop := ∀ b : Bucket,
  (b.count = 0#32 → b.avg = (0, 0, 0)) ∧
  (b.count ≠ 0#32 → b.avg = (b.rSum.toNat / b.count.toNat, b.gSum.toNat / b.count.toNat, b.bSum.toNat / b.count.toNat)) ∧
  (b.Bounded → b.avg.1 ≤ 31 ∧ b.avg.2.1 ≤ 63 ∧ b.avg.2.2 ≤ 31)

/-- `RDCOARSE` and `RDFINE` outside UNINIT answer with the chosen field, zero-extended: RESULT_HI is 0 for a count and holds
a sum's bits [37:32] (44_control_and_readback.md R164, R165, R166). -/
def Obligations.BucketReadsAnswerWithTheField : Prop := ∀ (s : State) (c : CoarseKey) (k : FineKey) (f : BucketField),
  s.phase ≠ .uninit → ∃ v v' : BitVec 64,
  exec (.rdcoarse c f) s = .next { s with result := v, lastErr := .ok } ∧
  exec (.rdfine k f) s = .next { s with result := v', lastErr := .ok } ∧
  v.toNat = (match f with
    | .count => (s.coarseAt c).count.toNat
    | .red => (s.coarseAt c).rSum.toNat
    | .green => (s.coarseAt c).gSum.toNat
    | .blue => (s.coarseAt c).bSum.toNat) ∧
  v'.toNat = (match f with
    | .count => (s.fineAt k).count.toNat
    | .red => (s.fineAt k).rSum.toNat
    | .green => (s.fineAt k).gSum.toNat
    | .blue => (s.fineAt k).bSum.toNat)

/-- `RDMAP` outside UNINIT answers with `{V, IDX}`: V in bit 8, IDX in bits [7:0], the rest 0
(44_control_and_readback.md R167). -/
def Obligations.MapReadAnswersWithTheEntry : Prop := ∀ (s : State) (k : FineKey), s.phase ≠ .uninit →
  ∃ v : BitVec 64, exec (.rdmap k) s = .next { s with result := v, lastErr := .ok } ∧
  v.toNat = (if (s.mapAt k).v = true then 256 else 0) + (s.mapAt k).idx.toNat

/-- `RDSEL` in BUILT answers with the fine key selected at the rank (44_control_and_readback.md R168). -/
def Obligations.SelectionReadAnswersWithTheKey : Prop := ∀ (s : State) (r : Rank), s.phase = .built →
  ∃ v : BitVec 64, exec (.rdsel r) s = .next { s with result := v, lastErr := .ok } ∧ v.toNat = (s.selAt r).toNat

/-- `RDPAL` in BUILT answers with the palette entry for an index below 192, and raises ERR_RANGE, changing nothing else, for
192 to 255 (44_control_and_readback.md R169, 20_memory.md R61). -/
def Obligations.PaletteReadAnswersOrRaisesRange : Prop := ∀ (s : State) (i : BitVec 8), s.phase = .built →
  (∀ h : i.toNat < 192, ∃ v : BitVec 64, exec (.rdpal i) s = .next { s with result := v, lastErr := .ok } ∧
    v.toNat = (s.pal[i.toNat]'h).toNat) ∧
  (192 ≤ i.toNat → exec (.rdpal i) s = .next { s with lastErr := .range, errSeen := true })

/-- A command not allowed in the current phase raises ERR_PHASE and changes nothing else, and an allowed one never ends in
ERR_PHASE: the table, command by command (60_exceptions.md R203). -/
def Obligations.PhaseTableIsEnforced : Prop := ∀ (s : State) (i : Instr) (forbidden : Prop),
  (forbidden ↔ match i with
    | .nop => False
    | .reset => False
    | .config _ _ _ _ _ _ => False
    | .observe _ => s.phase = .uninit ∨ s.phase = .built
    | .build => s.phase = .uninit ∨ s.phase = .built
    | .lookup _ => s.phase = .uninit ∨ s.phase = .accum
    | .rdcoarse _ _ => s.phase = .uninit
    | .rdfine _ _ => s.phase = .uninit
    | .rdmap _ => s.phase = .uninit
    | .rdsel _ => s.phase = .uninit ∨ s.phase = .accum
    | .rdpal _ => s.phase = .uninit ∨ s.phase = .accum) →
  (forbidden → exec i s = .next { s with lastErr := .phase, errSeen := true }) ∧
  (¬ forbidden → ∃ t, exec i s = .next t ∧ t.lastErr ≠ .phase)

/-- Which error a word ends in: ERR_ILLEGAL before ERR_PHASE before the command's own check, and no other
(60_exceptions.md R190, R191). -/
def Obligations.ErrorsAreCheckedInTheFixedOrder : Prop := ∀ (s : State) (w : Word), ∃ t, execWord w s = .next t ∧
  t.lastErr = (match decode w with
    | .error _ => .illegal
    | .ok i => if permitted i.op s.phase = false then .phase else
      match i with
      | .config rw ro gw go bw bo => if (configLayout rw ro gw go bw bo).legal s.params.palW.bits then .ok else .badCfg
      | .build => if s.cfgValid then .ok else .noCfg
      | .observe _ => if s.total = 0xFFFFFFFF#32 then .overflow else .ok
      | .rdpal idx => if 192 ≤ idx.toNat then .range else .ok
      | _ => .ok)

/-- A command that ends in an error changes nothing but LASTERR and ERRSEEN (60_exceptions.md R192). -/
def Obligations.ErrorsChangeNothingElse : Prop := ∀ (s t : State) (w : Word), execWord w s = .next t →
  t.lastErr ≠ .ok → t = { s with lastErr := t.lastErr, errSeen := true }

/-- ERRSEEN is set whenever a command ends in a non-zero code, by nothing else, and cleared only by a hardware reset
(10_state.md R27). -/
def Obligations.ErrSeenIsSticky : Prop := ∀ s t : State, step s = .next t →
  (s.engineNext → t.lastErr ≠ .ok → t.errSeen = true) ∧
  (s.resetNext → t.errSeen = false) ∧ (s.errSeen = true → t.errSeen = false → s.resetNext) ∧
  (s.errSeen = false → t.errSeen = true → s.engineNext ∧ t.lastErr ≠ .ok)

/-- OVR is set when a CMD write arrives while BUSY = 1, by nothing else, and cleared only by a hardware reset
(10_state.md R28). -/
def Obligations.OverrunIsSticky : Prop := ∀ s t : State, step s = .next t →
  (s.cmdWriteNext → s.busy = true → t.ovr = true) ∧
  (s.resetNext → t.ovr = false) ∧ (s.ovr = true → t.ovr = false → s.resetNext) ∧
  (s.ovr = false → t.ovr = true → s.cmdWriteNext ∧ s.busy = true)

/-- CFG_VALID is set by an accepted CONFIG, by nothing else, and cleared only by a hardware reset (10_state.md R26). -/
def Obligations.ConfigValidityPersists : Prop := ∀ s t : State, step s = .next t →
  (∀ rw ro gw go bw bo, s.runs (.config rw ro gw go bw bo) → t.lastErr = .ok → t.cfgValid = true) ∧
  (s.resetNext → t.cfgValid = false) ∧ (s.cfgValid = true → t.cfgValid = false → s.resetNext) ∧
  (s.cfgValid = false → t.cfgValid = true → ∃ rw ro gw go bw bo, s.runs (.config rw ro gw go bw bo) ∧ t.lastErr = .ok) ∧
  (s.runs .build → t.phase ≠ s.phase → s.cfgValid = true)

/-- LASTERR is written by the execution of a command and by a hardware reset alone; a discarded CMD write leaves it
(10_state.md R29). -/
def Obligations.LastErrorIsWrittenByCommandsAlone : Prop := ∀ s t : State, step s = .next t →
  ¬ s.engineNext → ¬ s.resetNext → t.lastErr = s.lastErr

/-- The phase changes only by a hardware reset (to UNINIT), by RESET (to ACCUM) and by a successful BUILD (from ACCUM to
BUILT) (10_state.md R30). -/
def Obligations.PhaseTransitions : Prop := ∀ s t : State, step s = .next t →
  (s.resetNext → t.phase = .uninit) ∧ (s.runs .reset → t.phase = .accum) ∧
  (t.phase ≠ s.phase → (s.resetNext ∧ t.phase = .uninit) ∨ (s.runs .reset ∧ t.phase = .accum) ∨
    (s.runs .build ∧ s.phase = .accum ∧ t.phase = .built ∧ t.lastErr = .ok))

/-- RESULT is written only by a successful LOOKUP, RDCOARSE, RDFINE, RDMAP, RDSEL or RDPAL (10_state.md R31). -/
def Obligations.ResultIsWrittenOnlyByAnswers : Prop := ∀ s t : State, step s = .next t → t.result ≠ s.result →
  s.resetNext ∨ (t.lastErr = .ok ∧ ∃ i, s.runs i ∧
    ((∃ p, i = .lookup p) ∨ (∃ c f, i = .rdcoarse c f) ∨ (∃ k f, i = .rdfine k f) ∨ (∃ k, i = .rdmap k) ∨
      (∃ r, i = .rdsel r) ∨ ∃ x, i = .rdpal x))

/-- Which commands write the register files and TOTAL: C by RESET, OBSERVE and BUILD; F by RESET and OBSERVE; MAP by RESET
and BUILD; SEL and PAL by BUILD; TOTAL by RESET and OBSERVE; PACKCFG by CONFIG (10_state.md R46). -/
def Obligations.RegisterFilesAreWrittenOnlyByTheirCommands : Prop := ∀ (i : Instr) (s t : State), exec i s = .next t →
  (t.coarse ≠ s.coarse → i = .reset ∨ (∃ p, i = .observe p) ∨ i = .build) ∧
  (t.fine ≠ s.fine → i = .reset ∨ ∃ p, i = .observe p) ∧
  (t.map ≠ s.map → i = .reset ∨ i = .build) ∧
  (t.sel ≠ s.sel ∨ t.pal ≠ s.pal → i = .build) ∧
  (t.total ≠ s.total → i = .reset ∨ ∃ p, i = .observe p) ∧
  (t.packcfg ≠ s.packcfg → ∃ rw ro gw go bw bo, i = .config rw ro gw go bw bo) ∧
  t.params = s.params ∧ t.pending = s.pending ∧ t.ovr = s.ovr ∧ t.inputs = s.inputs ∧ t.replies = s.replies ∧
  t.draws = s.draws

/-- A hardware reset leaves every register at its reset value and loses a pending command, whatever the state was
(10_state.md R43, 70_reset_and_hazards.md R220). -/
def Obligations.HardwareResetRestoresTheRegisters : Prop := ∀ s : State, s.resetNext → ∃ t, step s = .next t ∧
  t.pending = none ∧ t.busy = false ∧ t.phase = .uninit ∧ t.cfgValid = false ∧ t.errSeen = false ∧ t.ovr = false ∧
  t.lastErr = .ok ∧ t.result = 0#64 ∧ t.packcfg = 0#32 ∧ t.total = 0#32 ∧ t.params = s.params ∧ t.status = 0#32

/-- A write to CMD is accepted into an empty PENDING, and otherwise discarded: it sets OVR and nothing else changes
(20_memory.md R64). -/
def Obligations.CmdWriteIsAcceptedOrDiscarded : Prop := ∀ (s : State) (host : Nat) (w : Word),
  s.inputs.head? = some (.memWrite host (base s.params) 4 w) →
  (s.pending = none → step s = .next { s.popInput with pending := some w }) ∧
  (s.pending ≠ none → step s = .next { s.popInput with ovr := true })

/-- A write to any other register of the window is ignored (10_state.md R22, R35; 20_memory.md R63). -/
def Obligations.OtherWritesAreIgnored : Prop :=
  ∀ (s : State) (host off : Nat) (w : Word), off % 4 = 0 → 0x04 ≤ off → off ≤ 0x3C →
  s.inputs.head? = some (.memWrite host (base s.params + off) 4 w) → step s = .next s.popInput

/-- While BUSY = 0 a read returns the register at its offset, and changes nothing of the block (10_state.md R22, R23, R31 to
R35; 20_memory.md R63, R65). -/
def Obligations.IdleReadReturnsTheRegister : Prop := ∀ (s : State) (host off : Nat),
  s.pending = none → off % 4 = 0 → off ≤ 0x3C → s.inputs.head? = some (.memRead host (base s.params + off) 4) →
  ∃ (v : Word) (n : Nat), step s = .next { s.popInput with
    replies := ⟨host, base s.params + off, v⟩ :: s.replies, draws := n } ∧
  (off = 0x00 → v = 0#32) ∧ (off = 0x04 → v = s.status) ∧
  (off = 0x08 → v.toNat = s.result.toNat % 2 ^ 32) ∧ (off = 0x0C → v.toNat = s.result.toNat / 2 ^ 32) ∧
  (off = 0x10 → v = s.packcfg) ∧ (off = 0x14 → v = s.total) ∧ (off = 0x18 → v.toNat = s.params.palW.bits) ∧
  (0x1C ≤ off → v = 0#32)

/-- While BUSY = 1 a read of STATUS returns BUSY = 1, a PHASE other than 3 and 0 in the bits without a field, whatever the
free values; CMD, PARAM and the reserved offsets return their values; and no read changes the block (20_memory.md R63,
R65; 10_state.md R24). That the clause on PHASE 3 and on the bits without a field holds also while BUSY = 1 is the model's
reading of R24 beside R65 (log entry 4). -/
def Obligations.BusyReadShowsBusy : Prop := ∀ (s : State) (host off : Nat),
  s.pending ≠ none → off % 4 = 0 → off ≤ 0x3C → s.inputs.head? = some (.memRead host (base s.params + off) 4) →
  ∃ (v : Word) (n : Nat), step s = .next { s.popInput with
    replies := ⟨host, base s.params + off, v⟩ :: s.replies, draws := n } ∧
  (off = 0x04 → v.extractLsb' 0 1 = 1#1 ∧ v.extractLsb' 1 2 ≠ 3#2 ∧ v.extractLsb' 6 2 = 0#2 ∧
    v.extractLsb' 12 20 = 0#20) ∧
  (off = 0x00 ∨ 0x1C ≤ off → v = 0#32) ∧ (off = 0x18 → v.toNat = s.params.palW.bits)

/-- The fields of STATUS, read while BUSY = 0 (10_state.md R24, R30; 60_exceptions.md R190). -/
def Obligations.StatusFieldsAreWhereTheLayoutSays : Prop := ∀ s : State,
  (s.status.extractLsb' 0 1 = 1#1 ↔ s.pending ≠ none) ∧
  (s.status.extractLsb' 1 2).toNat = (match s.phase with
    | .uninit => 0
    | .accum => 1
    | .built => 2) ∧
  (s.status.extractLsb' 3 1 = 1#1 ↔ s.cfgValid = true) ∧ (s.status.extractLsb' 4 1 = 1#1 ↔ s.errSeen = true) ∧
  (s.status.extractLsb' 5 1 = 1#1 ↔ s.ovr = true) ∧ s.status.extractLsb' 6 2 = 0#2 ∧
  (s.status.extractLsb' 8 4).toNat = (match s.lastErr with
    | .ok => 0
    | .illegal => 1
    | .phase => 2
    | .badCfg => 3
    | .noCfg => 4
    | .overflow => 5
    | .range => 6) ∧
  s.status.extractLsb' 12 20 = 0#20

/-- PAL_W and BASE never change (10_state.md R33, 00_scope.md R10, R11; for BASE, log entry 2). -/
def Obligations.ParametersNeverChange : Prop := ∀ s t : State, step s = .next t → t.params = s.params

/-- After a hardware reset the invariant holds, whatever the parameters and the free values (10_state.md R43). -/
def Obligations.InvariantHoldsAtReset : Prop := State.reset.Inv ∧ ∀ s : State, (hardwareReset s).Inv

/-- Every step keeps the invariant (10_state.md R32, R41, R44, R45; 41_accumulator.md R109; 42_palette_builder.md R122,
R127). -/
def Obligations.StepKeepsTheInvariant : Prop := ∀ s t : State, s.Inv → step s = .next t → t.Inv

/-- A pending command completes, and what it leaves does not depend on the reads that fall between: from any state in which
only reads of the window are still to come, the engine's step is taken after them, and the block is as the command
executed at once would have left it (70_reset_and_hazards.md R230, R236; 20_memory.md R68). That the engine's turn comes when
no event is left is the model's form of R236's fairness (log entry 1). -/
def Obligations.PendingCommandCompletesUndisturbedByReads : Prop := ∀ (s : State) (w : Word), s.pending = some w →
  (∀ e ∈ s.inputs, e.isRead s.params = true) →
  ∃ t u, core.run (s.inputs.length + 1) s = .next t ∧ execWord w s = .next u ∧ t.busy = false ∧
    t.block = u.complete.block
end

