-- ==== Sys2Proof/Laws/State.lean ====
section
/-! SUPPORT. One lemma per field per update of the state, each true by rfl, so that no later proof unfolds a record
update. -/

namespace Sys2Proof.Machine

@[simp] theorem raise_params (s : State) (e : ErrCode) : (s.raise e).params = s.params := rfl
@[simp] theorem raise_pending (s : State) (e : ErrCode) : (s.raise e).pending = s.pending := rfl
@[simp] theorem raise_phase (s : State) (e : ErrCode) : (s.raise e).phase = s.phase := rfl
@[simp] theorem raise_cfgValid (s : State) (e : ErrCode) : (s.raise e).cfgValid = s.cfgValid := rfl
@[simp] theorem raise_errSeen (s : State) (e : ErrCode) : (s.raise e).errSeen = true := rfl
@[simp] theorem raise_ovr (s : State) (e : ErrCode) : (s.raise e).ovr = s.ovr := rfl
@[simp] theorem raise_lastErr (s : State) (e : ErrCode) : (s.raise e).lastErr = e := rfl
@[simp] theorem raise_result (s : State) (e : ErrCode) : (s.raise e).result = s.result := rfl
@[simp] theorem raise_packcfg (s : State) (e : ErrCode) : (s.raise e).packcfg = s.packcfg := rfl
@[simp] theorem raise_total (s : State) (e : ErrCode) : (s.raise e).total = s.total := rfl
@[simp] theorem raise_coarse (s : State) (e : ErrCode) : (s.raise e).coarse = s.coarse := rfl
@[simp] theorem raise_fine (s : State) (e : ErrCode) : (s.raise e).fine = s.fine := rfl
@[simp] theorem raise_map (s : State) (e : ErrCode) : (s.raise e).map = s.map := rfl
@[simp] theorem raise_sel (s : State) (e : ErrCode) : (s.raise e).sel = s.sel := rfl
@[simp] theorem raise_pal (s : State) (e : ErrCode) : (s.raise e).pal = s.pal := rfl
@[simp] theorem raise_inputs (s : State) (e : ErrCode) : (s.raise e).inputs = s.inputs := rfl
@[simp] theorem raise_replies (s : State) (e : ErrCode) : (s.raise e).replies = s.replies := rfl
@[simp] theorem raise_draws (s : State) (e : ErrCode) : (s.raise e).draws = s.draws := rfl

@[simp] theorem succeed_params (s : State) : s.succeed.params = s.params := rfl
@[simp] theorem succeed_pending (s : State) : s.succeed.pending = s.pending := rfl
@[simp] theorem succeed_phase (s : State) : s.succeed.phase = s.phase := rfl
@[simp] theorem succeed_cfgValid (s : State) : s.succeed.cfgValid = s.cfgValid := rfl
@[simp] theorem succeed_errSeen (s : State) : s.succeed.errSeen = s.errSeen := rfl
@[simp] theorem succeed_ovr (s : State) : s.succeed.ovr = s.ovr := rfl
@[simp] theorem succeed_lastErr (s : State) : s.succeed.lastErr = .ok := rfl
@[simp] theorem succeed_result (s : State) : s.succeed.result = s.result := rfl
@[simp] theorem succeed_packcfg (s : State) : s.succeed.packcfg = s.packcfg := rfl
@[simp] theorem succeed_total (s : State) : s.succeed.total = s.total := rfl
@[simp] theorem succeed_coarse (s : State) : s.succeed.coarse = s.coarse := rfl
@[simp] theorem succeed_fine (s : State) : s.succeed.fine = s.fine := rfl
@[simp] theorem succeed_map (s : State) : s.succeed.map = s.map := rfl
@[simp] theorem succeed_sel (s : State) : s.succeed.sel = s.sel := rfl
@[simp] theorem succeed_pal (s : State) : s.succeed.pal = s.pal := rfl
@[simp] theorem succeed_inputs (s : State) : s.succeed.inputs = s.inputs := rfl
@[simp] theorem succeed_replies (s : State) : s.succeed.replies = s.replies := rfl
@[simp] theorem succeed_draws (s : State) : s.succeed.draws = s.draws := rfl

@[simp] theorem answer_params (s : State) (v : BitVec 64) : (s.answer v).params = s.params := rfl
@[simp] theorem answer_pending (s : State) (v : BitVec 64) : (s.answer v).pending = s.pending := rfl
@[simp] theorem answer_phase (s : State) (v : BitVec 64) : (s.answer v).phase = s.phase := rfl
@[simp] theorem answer_cfgValid (s : State) (v : BitVec 64) : (s.answer v).cfgValid = s.cfgValid := rfl
@[simp] theorem answer_errSeen (s : State) (v : BitVec 64) : (s.answer v).errSeen = s.errSeen := rfl
@[simp] theorem answer_ovr (s : State) (v : BitVec 64) : (s.answer v).ovr = s.ovr := rfl
@[simp] theorem answer_lastErr (s : State) (v : BitVec 64) : (s.answer v).lastErr = .ok := rfl
@[simp] theorem answer_result (s : State) (v : BitVec 64) : (s.answer v).result = v := rfl
@[simp] theorem answer_packcfg (s : State) (v : BitVec 64) : (s.answer v).packcfg = s.packcfg := rfl
@[simp] theorem answer_total (s : State) (v : BitVec 64) : (s.answer v).total = s.total := rfl
@[simp] theorem answer_coarse (s : State) (v : BitVec 64) : (s.answer v).coarse = s.coarse := rfl
@[simp] theorem answer_fine (s : State) (v : BitVec 64) : (s.answer v).fine = s.fine := rfl
@[simp] theorem answer_map (s : State) (v : BitVec 64) : (s.answer v).map = s.map := rfl
@[simp] theorem answer_sel (s : State) (v : BitVec 64) : (s.answer v).sel = s.sel := rfl
@[simp] theorem answer_pal (s : State) (v : BitVec 64) : (s.answer v).pal = s.pal := rfl
@[simp] theorem answer_inputs (s : State) (v : BitVec 64) : (s.answer v).inputs = s.inputs := rfl
@[simp] theorem answer_replies (s : State) (v : BitVec 64) : (s.answer v).replies = s.replies := rfl
@[simp] theorem answer_draws (s : State) (v : BitVec 64) : (s.answer v).draws = s.draws := rfl

@[simp] theorem complete_params (s : State) : s.complete.params = s.params := rfl
@[simp] theorem complete_pending (s : State) : s.complete.pending = none := rfl
@[simp] theorem complete_phase (s : State) : s.complete.phase = s.phase := rfl
@[simp] theorem complete_cfgValid (s : State) : s.complete.cfgValid = s.cfgValid := rfl
@[simp] theorem complete_errSeen (s : State) : s.complete.errSeen = s.errSeen := rfl
@[simp] theorem complete_ovr (s : State) : s.complete.ovr = s.ovr := rfl
@[simp] theorem complete_lastErr (s : State) : s.complete.lastErr = s.lastErr := rfl
@[simp] theorem complete_result (s : State) : s.complete.result = s.result := rfl
@[simp] theorem complete_packcfg (s : State) : s.complete.packcfg = s.packcfg := rfl
@[simp] theorem complete_total (s : State) : s.complete.total = s.total := rfl
@[simp] theorem complete_coarse (s : State) : s.complete.coarse = s.coarse := rfl
@[simp] theorem complete_fine (s : State) : s.complete.fine = s.fine := rfl
@[simp] theorem complete_map (s : State) : s.complete.map = s.map := rfl
@[simp] theorem complete_sel (s : State) : s.complete.sel = s.sel := rfl
@[simp] theorem complete_pal (s : State) : s.complete.pal = s.pal := rfl
@[simp] theorem complete_inputs (s : State) : s.complete.inputs = s.inputs := rfl
@[simp] theorem complete_replies (s : State) : s.complete.replies = s.replies := rfl
@[simp] theorem complete_draws (s : State) : s.complete.draws = s.draws := rfl

@[simp] theorem popInput_params (s : State) : s.popInput.params = s.params := rfl
@[simp] theorem popInput_pending (s : State) : s.popInput.pending = s.pending := rfl
@[simp] theorem popInput_phase (s : State) : s.popInput.phase = s.phase := rfl
@[simp] theorem popInput_cfgValid (s : State) : s.popInput.cfgValid = s.cfgValid := rfl
@[simp] theorem popInput_errSeen (s : State) : s.popInput.errSeen = s.errSeen := rfl
@[simp] theorem popInput_ovr (s : State) : s.popInput.ovr = s.ovr := rfl
@[simp] theorem popInput_lastErr (s : State) : s.popInput.lastErr = s.lastErr := rfl
@[simp] theorem popInput_result (s : State) : s.popInput.result = s.result := rfl
@[simp] theorem popInput_packcfg (s : State) : s.popInput.packcfg = s.packcfg := rfl
@[simp] theorem popInput_total (s : State) : s.popInput.total = s.total := rfl
@[simp] theorem popInput_coarse (s : State) : s.popInput.coarse = s.coarse := rfl
@[simp] theorem popInput_fine (s : State) : s.popInput.fine = s.fine := rfl
@[simp] theorem popInput_map (s : State) : s.popInput.map = s.map := rfl
@[simp] theorem popInput_sel (s : State) : s.popInput.sel = s.sel := rfl
@[simp] theorem popInput_pal (s : State) : s.popInput.pal = s.pal := rfl
@[simp] theorem popInput_inputs (s : State) : s.popInput.inputs = s.inputs.tail := rfl
@[simp] theorem popInput_replies (s : State) : s.popInput.replies = s.replies := rfl
@[simp] theorem popInput_draws (s : State) : s.popInput.draws = s.draws := rfl

@[simp] theorem setCoarse_params (s : State) (k : CoarseKey) (b : Bucket) : (s.setCoarse k b).params = s.params := rfl
@[simp] theorem setCoarse_pending (s : State) (k : CoarseKey) (b : Bucket) : (s.setCoarse k b).pending = s.pending := rfl
@[simp] theorem setCoarse_phase (s : State) (k : CoarseKey) (b : Bucket) : (s.setCoarse k b).phase = s.phase := rfl
@[simp] theorem setCoarse_cfgValid (s : State) (k : CoarseKey) (b : Bucket) : (s.setCoarse k b).cfgValid = s.cfgValid := rfl
@[simp] theorem setCoarse_errSeen (s : State) (k : CoarseKey) (b : Bucket) : (s.setCoarse k b).errSeen = s.errSeen := rfl
@[simp] theorem setCoarse_ovr (s : State) (k : CoarseKey) (b : Bucket) : (s.setCoarse k b).ovr = s.ovr := rfl
@[simp] theorem setCoarse_lastErr (s : State) (k : CoarseKey) (b : Bucket) : (s.setCoarse k b).lastErr = s.lastErr := rfl
@[simp] theorem setCoarse_result (s : State) (k : CoarseKey) (b : Bucket) : (s.setCoarse k b).result = s.result := rfl
@[simp] theorem setCoarse_packcfg (s : State) (k : CoarseKey) (b : Bucket) : (s.setCoarse k b).packcfg = s.packcfg := rfl
@[simp] theorem setCoarse_total (s : State) (k : CoarseKey) (b : Bucket) : (s.setCoarse k b).total = s.total := rfl
@[simp] theorem setCoarse_coarse (s : State) (k : CoarseKey) (b : Bucket) : (s.setCoarse k b).coarse = s.coarse.set k.toNat b k.isLt := rfl
@[simp] theorem setCoarse_fine (s : State) (k : CoarseKey) (b : Bucket) : (s.setCoarse k b).fine = s.fine := rfl
@[simp] theorem setCoarse_map (s : State) (k : CoarseKey) (b : Bucket) : (s.setCoarse k b).map = s.map := rfl
@[simp] theorem setCoarse_sel (s : State) (k : CoarseKey) (b : Bucket) : (s.setCoarse k b).sel = s.sel := rfl
@[simp] theorem setCoarse_pal (s : State) (k : CoarseKey) (b : Bucket) : (s.setCoarse k b).pal = s.pal := rfl
@[simp] theorem setCoarse_inputs (s : State) (k : CoarseKey) (b : Bucket) : (s.setCoarse k b).inputs = s.inputs := rfl
@[simp] theorem setCoarse_replies (s : State) (k : CoarseKey) (b : Bucket) : (s.setCoarse k b).replies = s.replies := rfl
@[simp] theorem setCoarse_draws (s : State) (k : CoarseKey) (b : Bucket) : (s.setCoarse k b).draws = s.draws := rfl

@[simp] theorem setFine_params (s : State) (k : FineKey) (b : Bucket) : (s.setFine k b).params = s.params := rfl
@[simp] theorem setFine_pending (s : State) (k : FineKey) (b : Bucket) : (s.setFine k b).pending = s.pending := rfl
@[simp] theorem setFine_phase (s : State) (k : FineKey) (b : Bucket) : (s.setFine k b).phase = s.phase := rfl
@[simp] theorem setFine_cfgValid (s : State) (k : FineKey) (b : Bucket) : (s.setFine k b).cfgValid = s.cfgValid := rfl
@[simp] theorem setFine_errSeen (s : State) (k : FineKey) (b : Bucket) : (s.setFine k b).errSeen = s.errSeen := rfl
@[simp] theorem setFine_ovr (s : State) (k : FineKey) (b : Bucket) : (s.setFine k b).ovr = s.ovr := rfl
@[simp] theorem setFine_lastErr (s : State) (k : FineKey) (b : Bucket) : (s.setFine k b).lastErr = s.lastErr := rfl
@[simp] theorem setFine_result (s : State) (k : FineKey) (b : Bucket) : (s.setFine k b).result = s.result := rfl
@[simp] theorem setFine_packcfg (s : State) (k : FineKey) (b : Bucket) : (s.setFine k b).packcfg = s.packcfg := rfl
@[simp] theorem setFine_total (s : State) (k : FineKey) (b : Bucket) : (s.setFine k b).total = s.total := rfl
@[simp] theorem setFine_coarse (s : State) (k : FineKey) (b : Bucket) : (s.setFine k b).coarse = s.coarse := rfl
@[simp] theorem setFine_fine (s : State) (k : FineKey) (b : Bucket) : (s.setFine k b).fine = s.fine.set k.toNat b k.isLt := rfl
@[simp] theorem setFine_map (s : State) (k : FineKey) (b : Bucket) : (s.setFine k b).map = s.map := rfl
@[simp] theorem setFine_sel (s : State) (k : FineKey) (b : Bucket) : (s.setFine k b).sel = s.sel := rfl
@[simp] theorem setFine_pal (s : State) (k : FineKey) (b : Bucket) : (s.setFine k b).pal = s.pal := rfl
@[simp] theorem setFine_inputs (s : State) (k : FineKey) (b : Bucket) : (s.setFine k b).inputs = s.inputs := rfl
@[simp] theorem setFine_replies (s : State) (k : FineKey) (b : Bucket) : (s.setFine k b).replies = s.replies := rfl
@[simp] theorem setFine_draws (s : State) (k : FineKey) (b : Bucket) : (s.setFine k b).draws = s.draws := rfl

@[simp] theorem resetImage_params (s : State) : (resetImage s).params = s.params := rfl
@[simp] theorem resetImage_pending (s : State) : (resetImage s).pending = s.pending := rfl
@[simp] theorem resetImage_phase (s : State) : (resetImage s).phase = .accum := rfl
@[simp] theorem resetImage_cfgValid (s : State) : (resetImage s).cfgValid = s.cfgValid := rfl
@[simp] theorem resetImage_errSeen (s : State) : (resetImage s).errSeen = s.errSeen := rfl
@[simp] theorem resetImage_ovr (s : State) : (resetImage s).ovr = s.ovr := rfl
@[simp] theorem resetImage_lastErr (s : State) : (resetImage s).lastErr = .ok := rfl
@[simp] theorem resetImage_result (s : State) : (resetImage s).result = s.result := rfl
@[simp] theorem resetImage_packcfg (s : State) : (resetImage s).packcfg = s.packcfg := rfl
@[simp] theorem resetImage_total (s : State) : (resetImage s).total = 0#32 := rfl
@[simp] theorem resetImage_coarse (s : State) : (resetImage s).coarse = Vector.replicate 64 Bucket.empty := rfl
@[simp] theorem resetImage_fine (s : State) : (resetImage s).fine = Vector.replicate 4096 Bucket.empty := rfl
@[simp] theorem resetImage_map (s : State) : (resetImage s).map = Vector.replicate 4096 MapEntry.unassigned := rfl
@[simp] theorem resetImage_sel (s : State) : (resetImage s).sel = s.sel := rfl
@[simp] theorem resetImage_pal (s : State) : (resetImage s).pal = s.pal := rfl
@[simp] theorem resetImage_inputs (s : State) : (resetImage s).inputs = s.inputs := rfl
@[simp] theorem resetImage_replies (s : State) : (resetImage s).replies = s.replies := rfl
@[simp] theorem resetImage_draws (s : State) : (resetImage s).draws = s.draws := rfl

@[simp] theorem observePixel_params (s : State) (p : Pixel) : (observePixel p s).params = s.params := rfl
@[simp] theorem observePixel_pending (s : State) (p : Pixel) : (observePixel p s).pending = s.pending := rfl
@[simp] theorem observePixel_phase (s : State) (p : Pixel) : (observePixel p s).phase = s.phase := rfl
@[simp] theorem observePixel_cfgValid (s : State) (p : Pixel) : (observePixel p s).cfgValid = s.cfgValid := rfl
@[simp] theorem observePixel_errSeen (s : State) (p : Pixel) : (observePixel p s).errSeen = s.errSeen := rfl
@[simp] theorem observePixel_ovr (s : State) (p : Pixel) : (observePixel p s).ovr = s.ovr := rfl
@[simp] theorem observePixel_lastErr (s : State) (p : Pixel) : (observePixel p s).lastErr = .ok := rfl
@[simp] theorem observePixel_result (s : State) (p : Pixel) : (observePixel p s).result = s.result := rfl
@[simp] theorem observePixel_packcfg (s : State) (p : Pixel) : (observePixel p s).packcfg = s.packcfg := rfl
@[simp] theorem observePixel_total (s : State) (p : Pixel) : (observePixel p s).total = s.total + 1#32 := rfl
@[simp] theorem observePixel_coarse (s : State) (p : Pixel) : (observePixel p s).coarse = s.coarse.set (coarseKey p).toNat ((s.coarseAt (coarseKey p)).add p) (coarseKey p).isLt := rfl
@[simp] theorem observePixel_fine (s : State) (p : Pixel) : (observePixel p s).fine = s.fine.set (fineKey p).toNat ((s.fineAt (fineKey p)).add p) (fineKey p).isLt := rfl
@[simp] theorem observePixel_map (s : State) (p : Pixel) : (observePixel p s).map = s.map := rfl
@[simp] theorem observePixel_sel (s : State) (p : Pixel) : (observePixel p s).sel = s.sel := rfl
@[simp] theorem observePixel_pal (s : State) (p : Pixel) : (observePixel p s).pal = s.pal := rfl
@[simp] theorem observePixel_inputs (s : State) (p : Pixel) : (observePixel p s).inputs = s.inputs := rfl
@[simp] theorem observePixel_replies (s : State) (p : Pixel) : (observePixel p s).replies = s.replies := rfl
@[simp] theorem observePixel_draws (s : State) (p : Pixel) : (observePixel p s).draws = s.draws := rfl

@[simp] theorem acceptConfig_params (s : State) (w : Word) : (acceptConfig w s).params = s.params := rfl
@[simp] theorem acceptConfig_pending (s : State) (w : Word) : (acceptConfig w s).pending = s.pending := rfl
@[simp] theorem acceptConfig_phase (s : State) (w : Word) : (acceptConfig w s).phase = s.phase := rfl
@[simp] theorem acceptConfig_cfgValid (s : State) (w : Word) : (acceptConfig w s).cfgValid = true := rfl
@[simp] theorem acceptConfig_errSeen (s : State) (w : Word) : (acceptConfig w s).errSeen = s.errSeen := rfl
@[simp] theorem acceptConfig_ovr (s : State) (w : Word) : (acceptConfig w s).ovr = s.ovr := rfl
@[simp] theorem acceptConfig_lastErr (s : State) (w : Word) : (acceptConfig w s).lastErr = .ok := rfl
@[simp] theorem acceptConfig_result (s : State) (w : Word) : (acceptConfig w s).result = s.result := rfl
@[simp] theorem acceptConfig_packcfg (s : State) (w : Word) : (acceptConfig w s).packcfg = w &&& 0x0FFFFFFE#32 := rfl
@[simp] theorem acceptConfig_total (s : State) (w : Word) : (acceptConfig w s).total = s.total := rfl
@[simp] theorem acceptConfig_coarse (s : State) (w : Word) : (acceptConfig w s).coarse = s.coarse := rfl
@[simp] theorem acceptConfig_fine (s : State) (w : Word) : (acceptConfig w s).fine = s.fine := rfl
@[simp] theorem acceptConfig_map (s : State) (w : Word) : (acceptConfig w s).map = s.map := rfl
@[simp] theorem acceptConfig_sel (s : State) (w : Word) : (acceptConfig w s).sel = s.sel := rfl
@[simp] theorem acceptConfig_pal (s : State) (w : Word) : (acceptConfig w s).pal = s.pal := rfl
@[simp] theorem acceptConfig_inputs (s : State) (w : Word) : (acceptConfig w s).inputs = s.inputs := rfl
@[simp] theorem acceptConfig_replies (s : State) (w : Word) : (acceptConfig w s).replies = s.replies := rfl
@[simp] theorem acceptConfig_draws (s : State) (w : Word) : (acceptConfig w s).draws = s.draws := rfl

@[simp] theorem selectFine_params (s : State) : (selectFine s).params = s.params := rfl
@[simp] theorem selectFine_pending (s : State) : (selectFine s).pending = s.pending := rfl
@[simp] theorem selectFine_phase (s : State) : (selectFine s).phase = s.phase := rfl
@[simp] theorem selectFine_cfgValid (s : State) : (selectFine s).cfgValid = s.cfgValid := rfl
@[simp] theorem selectFine_errSeen (s : State) : (selectFine s).errSeen = s.errSeen := rfl
@[simp] theorem selectFine_ovr (s : State) : (selectFine s).ovr = s.ovr := rfl
@[simp] theorem selectFine_lastErr (s : State) : (selectFine s).lastErr = s.lastErr := rfl
@[simp] theorem selectFine_result (s : State) : (selectFine s).result = s.result := rfl
@[simp] theorem selectFine_packcfg (s : State) : (selectFine s).packcfg = s.packcfg := rfl
@[simp] theorem selectFine_total (s : State) : (selectFine s).total = s.total := rfl
@[simp] theorem selectFine_coarse (s : State) : (selectFine s).coarse = s.coarse := rfl
@[simp] theorem selectFine_fine (s : State) : (selectFine s).fine = s.fine := rfl
@[simp] theorem selectFine_map (s : State) : (selectFine s).map = s.map := rfl
@[simp] theorem selectFine_sel (s : State) : (selectFine s).sel = selection s.fine := rfl
@[simp] theorem selectFine_pal (s : State) : (selectFine s).pal = s.pal := rfl
@[simp] theorem selectFine_inputs (s : State) : (selectFine s).inputs = s.inputs := rfl
@[simp] theorem selectFine_replies (s : State) : (selectFine s).replies = s.replies := rfl
@[simp] theorem selectFine_draws (s : State) : (selectFine s).draws = s.draws := rfl

@[simp] theorem correctRank_params (s : State) (r : Rank) : (correctRank s r).params = s.params := rfl
@[simp] theorem correctRank_pending (s : State) (r : Rank) : (correctRank s r).pending = s.pending := rfl
@[simp] theorem correctRank_phase (s : State) (r : Rank) : (correctRank s r).phase = s.phase := rfl
@[simp] theorem correctRank_cfgValid (s : State) (r : Rank) : (correctRank s r).cfgValid = s.cfgValid := rfl
@[simp] theorem correctRank_errSeen (s : State) (r : Rank) : (correctRank s r).errSeen = s.errSeen := rfl
@[simp] theorem correctRank_ovr (s : State) (r : Rank) : (correctRank s r).ovr = s.ovr := rfl
@[simp] theorem correctRank_lastErr (s : State) (r : Rank) : (correctRank s r).lastErr = s.lastErr := rfl
@[simp] theorem correctRank_result (s : State) (r : Rank) : (correctRank s r).result = s.result := rfl
@[simp] theorem correctRank_packcfg (s : State) (r : Rank) : (correctRank s r).packcfg = s.packcfg := rfl
@[simp] theorem correctRank_total (s : State) (r : Rank) : (correctRank s r).total = s.total := rfl
@[simp] theorem correctRank_fine (s : State) (r : Rank) : (correctRank s r).fine = s.fine := rfl
@[simp] theorem correctRank_map (s : State) (r : Rank) : (correctRank s r).map = s.map := rfl
@[simp] theorem correctRank_sel (s : State) (r : Rank) : (correctRank s r).sel = s.sel := rfl
@[simp] theorem correctRank_pal (s : State) (r : Rank) : (correctRank s r).pal = s.pal := rfl
@[simp] theorem correctRank_inputs (s : State) (r : Rank) : (correctRank s r).inputs = s.inputs := rfl
@[simp] theorem correctRank_replies (s : State) (r : Rank) : (correctRank s r).replies = s.replies := rfl
@[simp] theorem correctRank_draws (s : State) (r : Rank) : (correctRank s r).draws = s.draws := rfl

@[simp] theorem averagePalette_params (s : State) : (averagePalette s).params = s.params := rfl
@[simp] theorem averagePalette_pending (s : State) : (averagePalette s).pending = s.pending := rfl
@[simp] theorem averagePalette_phase (s : State) : (averagePalette s).phase = s.phase := rfl
@[simp] theorem averagePalette_cfgValid (s : State) : (averagePalette s).cfgValid = s.cfgValid := rfl
@[simp] theorem averagePalette_errSeen (s : State) : (averagePalette s).errSeen = s.errSeen := rfl
@[simp] theorem averagePalette_ovr (s : State) : (averagePalette s).ovr = s.ovr := rfl
@[simp] theorem averagePalette_lastErr (s : State) : (averagePalette s).lastErr = s.lastErr := rfl
@[simp] theorem averagePalette_result (s : State) : (averagePalette s).result = s.result := rfl
@[simp] theorem averagePalette_packcfg (s : State) : (averagePalette s).packcfg = s.packcfg := rfl
@[simp] theorem averagePalette_total (s : State) : (averagePalette s).total = s.total := rfl
@[simp] theorem averagePalette_coarse (s : State) : (averagePalette s).coarse = s.coarse := rfl
@[simp] theorem averagePalette_fine (s : State) : (averagePalette s).fine = s.fine := rfl
@[simp] theorem averagePalette_map (s : State) : (averagePalette s).map = s.map := rfl
@[simp] theorem averagePalette_sel (s : State) : (averagePalette s).sel = s.sel := rfl
@[simp] theorem averagePalette_pal (s : State) : (averagePalette s).pal = newPalette s := rfl
@[simp] theorem averagePalette_inputs (s : State) : (averagePalette s).inputs = s.inputs := rfl
@[simp] theorem averagePalette_replies (s : State) : (averagePalette s).replies = s.replies := rfl
@[simp] theorem averagePalette_draws (s : State) : (averagePalette s).draws = s.draws := rfl

@[simp] theorem assignRank_params (s : State) (r : Rank) : (assignRank s r).params = s.params := rfl
@[simp] theorem assignRank_pending (s : State) (r : Rank) : (assignRank s r).pending = s.pending := rfl
@[simp] theorem assignRank_phase (s : State) (r : Rank) : (assignRank s r).phase = s.phase := rfl
@[simp] theorem assignRank_cfgValid (s : State) (r : Rank) : (assignRank s r).cfgValid = s.cfgValid := rfl
@[simp] theorem assignRank_errSeen (s : State) (r : Rank) : (assignRank s r).errSeen = s.errSeen := rfl
@[simp] theorem assignRank_ovr (s : State) (r : Rank) : (assignRank s r).ovr = s.ovr := rfl
@[simp] theorem assignRank_lastErr (s : State) (r : Rank) : (assignRank s r).lastErr = s.lastErr := rfl
@[simp] theorem assignRank_result (s : State) (r : Rank) : (assignRank s r).result = s.result := rfl
@[simp] theorem assignRank_packcfg (s : State) (r : Rank) : (assignRank s r).packcfg = s.packcfg := rfl
@[simp] theorem assignRank_total (s : State) (r : Rank) : (assignRank s r).total = s.total := rfl
@[simp] theorem assignRank_coarse (s : State) (r : Rank) : (assignRank s r).coarse = s.coarse := rfl
@[simp] theorem assignRank_fine (s : State) (r : Rank) : (assignRank s r).fine = s.fine := rfl
@[simp] theorem assignRank_map (s : State) (r : Rank) : (assignRank s r).map = s.map.set (s.selAt r).toNat (MapEntry.assigned (64#8 + r.setWidth 8)) (s.selAt r).isLt := rfl
@[simp] theorem assignRank_sel (s : State) (r : Rank) : (assignRank s r).sel = s.sel := rfl
@[simp] theorem assignRank_pal (s : State) (r : Rank) : (assignRank s r).pal = s.pal := rfl
@[simp] theorem assignRank_inputs (s : State) (r : Rank) : (assignRank s r).inputs = s.inputs := rfl
@[simp] theorem assignRank_replies (s : State) (r : Rank) : (assignRank s r).replies = s.replies := rfl
@[simp] theorem assignRank_draws (s : State) (r : Rank) : (assignRank s r).draws = s.draws := rfl

@[simp] theorem afterReset_params (p : Params) (n : Nat) (es : List BusEvent) (rs : List HostReply) : (State.afterReset p n es rs).params = p := rfl
@[simp] theorem afterReset_pending (p : Params) (n : Nat) (es : List BusEvent) (rs : List HostReply) : (State.afterReset p n es rs).pending = none := rfl
@[simp] theorem afterReset_phase (p : Params) (n : Nat) (es : List BusEvent) (rs : List HostReply) : (State.afterReset p n es rs).phase = .uninit := rfl
@[simp] theorem afterReset_cfgValid (p : Params) (n : Nat) (es : List BusEvent) (rs : List HostReply) : (State.afterReset p n es rs).cfgValid = false := rfl
@[simp] theorem afterReset_errSeen (p : Params) (n : Nat) (es : List BusEvent) (rs : List HostReply) : (State.afterReset p n es rs).errSeen = false := rfl
@[simp] theorem afterReset_ovr (p : Params) (n : Nat) (es : List BusEvent) (rs : List HostReply) : (State.afterReset p n es rs).ovr = false := rfl
@[simp] theorem afterReset_lastErr (p : Params) (n : Nat) (es : List BusEvent) (rs : List HostReply) : (State.afterReset p n es rs).lastErr = .ok := rfl
@[simp] theorem afterReset_result (p : Params) (n : Nat) (es : List BusEvent) (rs : List HostReply) : (State.afterReset p n es rs).result = 0#64 := rfl
@[simp] theorem afterReset_packcfg (p : Params) (n : Nat) (es : List BusEvent) (rs : List HostReply) : (State.afterReset p n es rs).packcfg = 0#32 := rfl
@[simp] theorem afterReset_total (p : Params) (n : Nat) (es : List BusEvent) (rs : List HostReply) : (State.afterReset p n es rs).total = 0#32 := rfl
@[simp] theorem afterReset_coarse (p : Params) (n : Nat) (es : List BusEvent) (rs : List HostReply) : (State.afterReset p n es rs).coarse = resetCoarse n := rfl
@[simp] theorem afterReset_fine (p : Params) (n : Nat) (es : List BusEvent) (rs : List HostReply) : (State.afterReset p n es rs).fine = resetFine n := rfl
@[simp] theorem afterReset_map (p : Params) (n : Nat) (es : List BusEvent) (rs : List HostReply) : (State.afterReset p n es rs).map = resetMap n := rfl
@[simp] theorem afterReset_sel (p : Params) (n : Nat) (es : List BusEvent) (rs : List HostReply) : (State.afterReset p n es rs).sel = resetSel n := rfl
@[simp] theorem afterReset_pal (p : Params) (n : Nat) (es : List BusEvent) (rs : List HostReply) : (State.afterReset p n es rs).pal = resetPal p.palW n := rfl
@[simp] theorem afterReset_inputs (p : Params) (n : Nat) (es : List BusEvent) (rs : List HostReply) : (State.afterReset p n es rs).inputs = es := rfl
@[simp] theorem afterReset_replies (p : Params) (n : Nat) (es : List BusEvent) (rs : List HostReply) : (State.afterReset p n es rs).replies = rs := rfl
@[simp] theorem afterReset_draws (p : Params) (n : Nat) (es : List BusEvent) (rs : List HostReply) : (State.afterReset p n es rs).draws = n + 1 := rfl

end Sys2Proof.Machine
end

