-- ==== Sys2Proof/Laws/Ops.lean ====
section
/-! SUPPORT. What the shared operations do: reading a register file after a write to it, and the phase check. -/

namespace Sys2Proof.Machine

@[simp] theorem coarseAt_setCoarse_same (s : State) (k : CoarseKey) (b : Bucket) : (s.setCoarse k b).coarseAt k = b := by
  simp [State.coarseAt]

theorem coarseAt_setCoarse_other (s : State) (k j : CoarseKey) (b : Bucket) (h : j ≠ k) :
    (s.setCoarse k b).coarseAt j = s.coarseAt j := by
  have : k.toNat ≠ j.toNat := fun e => h (BitVec.eq_of_toNat_eq e.symm)
  simp [State.coarseAt, Vector.getElem_set_ne, this]

theorem coarseAt_setCoarse (s : State) (k j : CoarseKey) (b : Bucket) :
    (s.setCoarse k b).coarseAt j = if j = k then b else s.coarseAt j := by
  split
  · subst j; simp
  · exact coarseAt_setCoarse_other s k j b ‹_›

@[simp] theorem fineAt_setFine_same (s : State) (k : FineKey) (b : Bucket) : (s.setFine k b).fineAt k = b := by
  simp [State.fineAt]

theorem fineAt_setFine_other (s : State) (k j : FineKey) (b : Bucket) (h : j ≠ k) :
    (s.setFine k b).fineAt j = s.fineAt j := by
  have : k.toNat ≠ j.toNat := fun e => h (BitVec.eq_of_toNat_eq e.symm)
  simp [State.fineAt, Vector.getElem_set_ne, this]

theorem fineAt_setFine (s : State) (k j : FineKey) (b : Bucket) :
    (s.setFine k b).fineAt j = if j = k then b else s.fineAt j := by
  split
  · subst j; simp
  · exact fineAt_setFine_other s k j b ‹_›

/-- A register file read depends on that file alone. -/
theorem coarseAt_congr {s t : State} (h : s.coarse = t.coarse) (k : CoarseKey) : s.coarseAt k = t.coarseAt k := by
  simp [State.coarseAt, h]

theorem fineAt_congr {s t : State} (h : s.fine = t.fine) (k : FineKey) : s.fineAt k = t.fineAt k := by
  simp [State.fineAt, h]

theorem mapAt_congr {s t : State} (h : s.map = t.map) (k : FineKey) : s.mapAt k = t.mapAt k := by
  simp [State.mapAt, h]

theorem selAt_congr {s t : State} (h : s.sel = t.sel) (r : Rank) : s.selAt r = t.selAt r := by
  simp [State.selAt, h]

theorem palAt_congr {s t : State} (h : s.pal = t.pal) (i : Nat) : s.palAt i = t.palAt i := by
  simp [State.palAt, h]

/-- Two coarse grids that read the same are the same. -/
theorem coarse_ext {s t : State} (h : ∀ k, s.coarseAt k = t.coarseAt k) : s.coarse = t.coarse := by
  refine Vector.ext fun i hi => ?_
  have := h (BitVec.ofNat 6 i)
  simp only [State.coarseAt, BitVec.toNat_ofNat, Nat.mod_eq_of_lt (show i < 2 ^ 6 from hi)] at this
  exact this

/-- Two fine grids that read the same are the same. -/
theorem fine_ext {s t : State} (h : ∀ k, s.fineAt k = t.fineAt k) : s.fine = t.fine := by
  refine Vector.ext fun i hi => ?_
  have := h (BitVec.ofNat 12 i)
  simp only [State.fineAt, BitVec.toNat_ofNat, Nat.mod_eq_of_lt (show i < 2 ^ 12 from hi)] at this
  exact this

/-- Two maps that read the same are the same. -/
theorem map_ext {s t : State} (h : ∀ k, s.mapAt k = t.mapAt k) : s.map = t.map := by
  refine Vector.ext fun i hi => ?_
  have := h (BitVec.ofNat 12 i)
  simp only [State.mapAt, BitVec.toNat_ofNat, Nat.mod_eq_of_lt (show i < 2 ^ 12 from hi)] at this
  exact this

@[simp] theorem observePixel_coarseAt (s : State) (p : Pixel) (k : CoarseKey) :
    (observePixel p s).coarseAt k = if k = coarseKey p then (s.coarseAt k).add p else s.coarseAt k := by
  have h : (observePixel p s).coarseAt k = (s.setCoarse (coarseKey p) ((s.coarseAt (coarseKey p)).add p)).coarseAt k :=
    coarseAt_congr rfl k
  rw [h, coarseAt_setCoarse]
  split <;> simp_all

@[simp] theorem observePixel_fineAt (s : State) (p : Pixel) (k : FineKey) :
    (observePixel p s).fineAt k = if k = fineKey p then (s.fineAt k).add p else s.fineAt k := by
  have h : (observePixel p s).fineAt k = (s.setFine (fineKey p) ((s.fineAt (fineKey p)).add p)).fineAt k :=
    fineAt_congr rfl k
  rw [h, fineAt_setFine]
  split <;> simp_all

@[simp] theorem resetImage_coarseAt (s : State) (k : CoarseKey) : (resetImage s).coarseAt k = Bucket.empty := by
  simp [State.coarseAt]

@[simp] theorem resetImage_fineAt (s : State) (k : FineKey) : (resetImage s).fineAt k = Bucket.empty := by
  simp [State.fineAt]

@[simp] theorem resetImage_mapAt (s : State) (k : FineKey) : (resetImage s).mapAt k = MapEntry.unassigned := by
  simp [State.mapAt]

/-- A palette read at a valid index is the entry there. -/
theorem palAt_of_lt (s : State) (i : Nat) (h : i < 192) : s.palAt i = s.pal[i] := by
  simp [State.palAt, h]

/-- An allowed command runs. -/
theorem guardPhase_of_permitted {s : State} {op : Opcode} (h : permitted op s.phase = true) (body : State) :
    s.guardPhase op body = body := by
  simp [State.guardPhase, h]

/-- A command not allowed raises ERR_PHASE (60_exceptions.md R203). -/
theorem guardPhase_of_not_permitted {s : State} {op : Opcode} (h : permitted op s.phase = false) (body : State) :
    s.guardPhase op body = s.raise .phase := by
  simp [State.guardPhase, h]

/-- A phase check ends in the command's own effect or in ERR_PHASE. -/
theorem guardPhase_cases (s : State) (op : Opcode) (body : State) :
    (permitted op s.phase = true ∧ s.guardPhase op body = body) ∨
    (permitted op s.phase = false ∧ s.guardPhase op body = s.raise .phase) := by
  cases h : permitted op s.phase
  · exact .inr ⟨rfl, guardPhase_of_not_permitted h body⟩
  · exact .inl ⟨rfl, guardPhase_of_permitted h body⟩

end Sys2Proof.Machine
end

