-- ==== Sys2Proof/Laws/Sort.lean ====
section
/-! SUPPORT. The sort of the selection: it permutes its list, and it sorts by any comparison whose negation is a total
preorder; so the fine order is the 4096 fine keys in the order of 42_palette_builder.md R122. -/

namespace Sys2Proof.Machine

section
variable {α : Type} (lt : α → α → Bool)

theorem mergeHead_perm (x : α) (xs : List α) (rest : List α → List α)
    (h : ∀ ys, (rest ys).Perm (xs ++ ys)) (ys : List α) : (mergeHead lt x rest ys).Perm (x :: xs ++ ys) := by
  induction ys with
  | nil => simpa [mergeHead] using (h []).cons x
  | cons y ys ih =>
    simp only [mergeHead]
    split
    · exact (ih.cons y).trans (by simpa using (List.perm_middle (l₁ := x :: xs) (a := y) (l₂ := ys)).symm)
    · exact (h (y :: ys)).cons x

theorem mergeBy_perm (xs ys : List α) : (mergeBy lt xs ys).Perm (xs ++ ys) := by
  induction xs generalizing ys with
  | nil => simp [mergeBy]
  | cons x xs ih => exact mergeHead_perm lt x xs _ ih ys

theorem mergePass_perm : ∀ ls : List (List α), (mergePass lt ls).flatten.Perm ls.flatten
  | [] => by simp [mergePass]
  | [a] => by simp [mergePass]
  | a :: b :: rest => by
    simpa [mergePass] using (mergeBy_perm lt a b).append (mergePass_perm rest)

theorem foldr_mergeBy_perm (ls : List (List α)) : (ls.foldr (mergeBy lt) []).Perm ls.flatten := by
  induction ls with
  | nil => simp
  | cons a ls ih => exact (mergeBy_perm lt a _).trans (by simpa using ih.append_left a)

theorem mergeRuns_perm (n : Nat) (ls : List (List α)) : (mergeRuns lt n ls).Perm ls.flatten := by
  induction n generalizing ls with
  | zero => exact foldr_mergeBy_perm lt ls
  | succ n ih => exact (ih _).trans (mergePass_perm lt ls)

/-- Sorting permutes. -/
theorem sortBy_perm (l : List α) : (sortBy lt l).Perm l := by
  have h : (l.map fun x => [x]).flatten = l := by induction l <;> simp_all
  have hp := mergeRuns_perm lt 12 (l.map fun x => [x])
  rw [h] at hp
  exact hp

/-- `a` does not come after `b`. -/
abbrev NotAfter (a b : α) : Prop := lt b a = false

variable {lt}
variable (trans : ∀ a b c, NotAfter lt a b → NotAfter lt b c → NotAfter lt a c)
variable (total : ∀ a b, lt a b = true → NotAfter lt a b)
include trans total

theorem mergeHead_sorted (x : α) (xs : List α) (rest : List α → List α)
    (hp : ∀ ys, (rest ys).Perm (xs ++ ys))
    (hs : ∀ ys, ys.Pairwise (NotAfter lt) → (rest ys).Pairwise (NotAfter lt))
    (hx : ∀ a ∈ xs, NotAfter lt x a) (ys : List α) (hy : ys.Pairwise (NotAfter lt)) :
    (mergeHead lt x rest ys).Pairwise (NotAfter lt) := by
  induction ys with
  | nil =>
    simp only [mergeHead, List.pairwise_cons]
    exact ⟨fun a ha => hx a (by simpa using (hp []).mem_iff.1 ha), hs [] List.Pairwise.nil⟩
  | cons y ys ih =>
    obtain ⟨hy1, hy2⟩ := List.pairwise_cons.1 hy
    simp only [mergeHead]
    split
    · rename_i hlt
      refine List.pairwise_cons.2 ⟨fun a ha => ?_, ih hy2⟩
      have hyx := total y x hlt
      have := (mergeHead_perm lt x xs rest hp ys).mem_iff.1 ha
      simp only [List.cons_append, List.mem_cons, List.mem_append] at this
      rcases this with rfl | h | h
      · exact hyx
      · exact trans _ _ _ hyx (hx a h)
      · exact hy1 a h
    · rename_i hlt
      refine List.pairwise_cons.2 ⟨fun a ha => ?_, hs _ hy⟩
      have hxy : NotAfter lt x y := by simpa using hlt
      have := (hp (y :: ys)).mem_iff.1 ha
      simp only [List.mem_append, List.mem_cons] at this
      rcases this with h | rfl | h
      · exact hx a h
      · exact hxy
      · exact trans _ _ _ hxy (hy1 a h)

theorem mergeBy_sorted (xs ys : List α) (hx : xs.Pairwise (NotAfter lt)) (hy : ys.Pairwise (NotAfter lt)) :
    (mergeBy lt xs ys).Pairwise (NotAfter lt) := by
  induction xs generalizing ys with
  | nil => simpa [mergeBy] using hy
  | cons x xs ih =>
    obtain ⟨h1, h2⟩ := List.pairwise_cons.1 hx
    exact mergeHead_sorted trans total x xs _ (mergeBy_perm lt xs) (fun ys h => ih ys h2 h) h1 ys hy

theorem mergePass_sorted : ∀ ls : List (List α), (∀ l ∈ ls, l.Pairwise (NotAfter lt)) →
    ∀ l ∈ mergePass lt ls, l.Pairwise (NotAfter lt)
  | [], _ => by simp [mergePass]
  | [a], h => by simpa [mergePass] using h
  | a :: b :: rest, h => by
    intro l hl
    simp only [mergePass, List.mem_cons] at hl
    rcases hl with rfl | hl
    · exact mergeBy_sorted trans total a b (h a (by simp)) (h b (by simp))
    · exact mergePass_sorted rest (fun l hl => h l (by simp [hl])) l hl

theorem mergeRuns_sorted (n : Nat) (ls : List (List α)) (h : ∀ l ∈ ls, l.Pairwise (NotAfter lt)) :
    (mergeRuns lt n ls).Pairwise (NotAfter lt) := by
  induction n generalizing ls with
  | zero =>
    simp only [mergeRuns]
    induction ls with
    | nil => simp
    | cons a ls ih =>
      exact mergeBy_sorted trans total a _ (h a (by simp)) (ih fun l hl => h l (by simp [hl]))
  | succ n ih => exact ih _ (mergePass_sorted trans total ls h)

/-- The sorted list has no element before one that precedes it. -/
theorem sortBy_sorted (l : List α) : (sortBy lt l).Pairwise (NotAfter lt) :=
  mergeRuns_sorted trans total 12 _ (by simp)

end

/-- "Not after" is transitive on ranked keys. -/
theorem precedes_trans (a b c : Ranked) (h1 : NotAfter Ranked.precedes a b) (h2 : NotAfter Ranked.precedes b c) :
    NotAfter Ranked.precedes a c := by
  simp only [NotAfter, Ranked.precedes, Bool.or_eq_false_iff, Bool.and_eq_false_iff, decide_eq_false_iff_not] at *
  omega

/-- No two ranked keys precede each other (42_palette_builder.md R122). -/
theorem precedes_asymm (a b : Ranked) (h : Ranked.precedes a b = true) : NotAfter Ranked.precedes a b := by
  simp only [NotAfter, Ranked.precedes, Bool.or_eq_false_iff, Bool.and_eq_false_iff, decide_eq_false_iff_not,
    Bool.or_eq_true, Bool.and_eq_true, decide_eq_true_eq] at *
  omega

/-- Of two ranked keys with different keys, one precedes the other (42_palette_builder.md R122). -/
theorem precedes_of_notAfter (a b : Ranked) (hk : a.key ≠ b.key) (h : NotAfter Ranked.precedes a b) :
    Ranked.precedes a b = true := by
  have hk' : a.key.toNat ≠ b.key.toNat := fun h => hk (BitVec.eq_of_toNat_eq h)
  simp only [NotAfter, Ranked.precedes, Bool.or_eq_false_iff, Bool.and_eq_false_iff, decide_eq_false_iff_not,
    Bool.or_eq_true, Bool.and_eq_true, decide_eq_true_eq] at *
  omega

end Sys2Proof.Machine
end

