-- ==== Sys2Proof/Laws/Selection.lean ====
section
/-! SUPPORT. What step 1 of BUILD selects (42_palette_builder.md R122, R124): 128 distinct fine keys in the selection order,
each before every key left out. -/

namespace Sys2Proof.Machine

/-- The count of a fine key in a grid. -/
def countAt (fine : Vector Bucket 4096) (k : FineKey) : Nat := (fine[k.toNat]'k.isLt).count.toNat

/-- `a` precedes `b` in a grid's selection order (42_palette_builder.md R122). -/
def KeyPrecedes (fine : Vector Bucket 4096) (a b : FineKey) : Prop :=
  countAt fine b < countAt fine a ∨ (countAt fine a = countAt fine b ∧ a.toNat < b.toNat)

theorem precedes_iff (s : State) (a b : FineKey) : s.precedes a b ↔ KeyPrecedes s.fine a b := Iff.rfl

theorem length_rankedKeys (fine : Vector Bucket 4096) : (rankedKeys fine).length = 4096 := by
  simp [rankedKeys]

theorem getElem_rankedKeys (fine : Vector Bucket 4096) (i : Nat) (h : i < (rankedKeys fine).length) :
    (rankedKeys fine)[i] = ⟨(fine[i]'(by simpa [length_rankedKeys] using h)).count, BitVec.ofNat 12 i⟩ := by
  simp [rankedKeys]

theorem mem_rankedKeys (fine : Vector Bucket 4096) (x : Ranked) (h : x ∈ rankedKeys fine) :
    x.count.toNat = countAt fine x.key := by
  obtain ⟨i, hi, rfl⟩ := List.getElem_of_mem h
  have hi' : i < 4096 := by simpa [length_rankedKeys] using hi
  simp [getElem_rankedKeys, countAt, Nat.mod_eq_of_lt hi']

theorem map_key_rankedKeys (fine : Vector Bucket 4096) :
    (rankedKeys fine).map Ranked.key = (List.range 4096).map (BitVec.ofNat 12) := by
  apply List.ext_getElem
  · simp [length_rankedKeys]
  · intro i h1 h2
    simp [getElem_rankedKeys]

theorem nodup_allKeys : ((List.range 4096).map (BitVec.ofNat 12)).Nodup := by
  refine List.Nodup.map_on (fun a ha b hb h => ?_) List.nodup_range
  have := congrArg BitVec.toNat h
  simp only [List.mem_range] at ha hb
  simpa [Nat.mod_eq_of_lt ha, Nat.mod_eq_of_lt hb] using this

theorem mem_allKeys (k : FineKey) : k ∈ (List.range 4096).map (BitVec.ofNat 12) :=
  List.mem_map.2 ⟨k.toNat, List.mem_range.2 k.isLt, by simp⟩

/-- The fine order has every fine key once (42_palette_builder.md R122). -/
theorem fineOrder_perm (fine : Vector Bucket 4096) :
    (fineOrder fine).Perm ((List.range 4096).map (BitVec.ofNat 12)) := by
  rw [← map_key_rankedKeys fine]
  exact (sortBy_perm _ _).map _

theorem fineOrder_nodup (fine : Vector Bucket 4096) : (fineOrder fine).Nodup :=
  (fineOrder_perm fine).nodup_iff.2 nodup_allKeys

theorem length_fineOrder (fine : Vector Bucket 4096) : (fineOrder fine).length = 4096 := by
  simpa using (fineOrder_perm fine).length_eq

theorem mem_fineOrder (fine : Vector Bucket 4096) (k : FineKey) : k ∈ fineOrder fine :=
  (fineOrder_perm fine).mem_iff.2 (mem_allKeys k)

/-- The fine order is sorted (42_palette_builder.md R122). -/
theorem fineOrder_sorted (fine : Vector Bucket 4096) : (fineOrder fine).Pairwise (KeyPrecedes fine) := by
  have hs := sortBy_sorted precedes_trans precedes_asymm (rankedKeys fine)
  have hn : (sortBy Ranked.precedes (rankedKeys fine)).Pairwise fun a b => a.key ≠ b.key :=
    List.pairwise_map.1 (fineOrder_nodup fine)
  have hm : ∀ x ∈ sortBy Ranked.precedes (rankedKeys fine), x.count.toNat = countAt fine x.key :=
    fun x hx => mem_rankedKeys fine x ((sortBy_perm _ _).mem_iff.1 hx)
  refine List.pairwise_map.2 (((hs.and hn).imp_of_mem ?_))
  intro a b ha hb ⟨h1, h2⟩
  have := precedes_of_notAfter a b h2 h1
  simpa [Ranked.precedes, KeyPrecedes, hm a ha, hm b hb] using this

/-- `SEL[r]` is the order's entry at `r` (42_palette_builder.md R124). -/
theorem getElem_selection (fine : Vector Bucket 4096) (r : Nat) (h : r < 128) :
    (selection fine)[r] = (fineOrder fine)[r]'(by rw [length_fineOrder]; omega) := by
  have h' : r < (fineOrder fine).length := by rw [length_fineOrder]; omega
  unfold selection
  simp [h']

theorem selAt_selectFine (s : State) (r : Rank) :
    (selectFine s).selAt r =
      (fineOrder s.fine)[r.toNat]'(by rw [length_fineOrder]; have := r.isLt; omega) :=
  getElem_selection s.fine r.toNat r.isLt

/-- The selected keys are distinct (42_palette_builder.md R124). -/
theorem selAt_selectFine_inj (s : State) (r r' : Rank) (h : (selectFine s).selAt r = (selectFine s).selAt r') :
    r = r' := by
  rw [selAt_selectFine, selAt_selectFine] at h
  exact BitVec.eq_of_toNat_eq ((fineOrder_nodup s.fine).getElem_inj_iff.1 h)

/-- The selected keys stand in the selection order (42_palette_builder.md R122, R124). -/
theorem selAt_selectFine_sorted (s : State) (r r' : Rank) (h : r.toNat < r'.toNat) :
    s.precedes ((selectFine s).selAt r) ((selectFine s).selAt r') := by
  rw [precedes_iff, selAt_selectFine, selAt_selectFine]
  exact List.pairwise_iff_getElem.1 (fineOrder_sorted s.fine) _ _ _ _ h

/-- A key is selected exactly if it has a rank (10_state.md R40). -/
theorem selected_iff (s : State) (k : FineKey) : s.selected k = true ↔ ∃ r, s.selAt r = k := by
  simp only [State.selected, List.contains_iff_mem, State.selAt]
  constructor
  · intro h
    obtain ⟨i, hi, e⟩ := List.getElem_of_mem h
    have hi' : i < 128 := by simpa using hi
    refine ⟨BitVec.ofNat 7 i, ?_⟩
    simp only [BitVec.toNat_ofNat, Nat.mod_eq_of_lt (show i < 2 ^ 7 from hi')]
    simpa using e
  · rintro ⟨r, rfl⟩
    simp

theorem not_selected_iff (s : State) (k : FineKey) : s.selected k = false ↔ ∀ r, s.selAt r ≠ k := by
  rw [← Bool.not_eq_true, selected_iff]
  simp

/-- Every selected key precedes every key left out (42_palette_builder.md R122, R124). -/
theorem selectFine_first (s : State) (r : Rank) (k : FineKey) (h : (selectFine s).selected k = false) :
    s.precedes ((selectFine s).selAt r) k := by
  obtain ⟨i, hi, e⟩ := List.getElem_of_mem (mem_fineOrder s.fine k)
  have hi' : 128 ≤ i := by
    by_contra hlt
    have hlt : i < 128 := by omega
    refine (not_selected_iff _ _).1 h (BitVec.ofNat 7 i) ?_
    rw [selAt_selectFine, ← e]
    simp only [BitVec.toNat_ofNat, Nat.mod_eq_of_lt (show i < 2 ^ 7 from hlt)]
  rw [precedes_iff, selAt_selectFine, ← e]
  have := r.isLt
  exact List.pairwise_iff_getElem.1 (fineOrder_sorted s.fine) _ _ _ _ (by omega)

end Sys2Proof.Machine
end

