-- ==== Sys2Proof/Laws/Build.lean ====
section
/-! SUPPORT. What steps 2 to 4 of BUILD do to the coarse grid, the map and the palette, and what they leave alone
(42_palette_builder.md R125, R129, R130, R133). -/

namespace Sys2Proof.Machine

theorem mem_ranks (r : Rank) : r ∈ ranks := by
  unfold ranks
  exact List.mem_map.2 ⟨r.toNat, List.mem_range.2 r.isLt, by simp⟩

/-- Step 2 changes the coarse grid alone. -/
theorem foldl_correctRank_frame (rs : List Rank) (s : State) :
    rs.foldl correctRank s = { s with coarse := (rs.foldl correctRank s).coarse } := by
  induction rs generalizing s with
  | nil => rfl
  | cons r rs ih =>
    rw [List.foldl_cons, ih]
    rfl

/-- Step 4 on the map changes the map alone. -/
theorem foldl_assignRank_frame (rs : List Rank) (s : State) :
    rs.foldl assignRank s = { s with map := (rs.foldl assignRank s).map } := by
  induction rs generalizing s with
  | nil => rfl
  | cons r rs ih =>
    rw [List.foldl_cons, ih]
    rfl

theorem correctCoarse_frame (s : State) : correctCoarse s = { s with coarse := (correctCoarse s).coarse } := by
  unfold correctCoarse
  exact foldl_correctRank_frame ranks s

theorem assignMap_frame (s : State) : assignMap s = { s with map := (assignMap s).map } := by
  unfold assignMap
  exact foldl_assignRank_frame ranks s

@[simp] theorem correctCoarse_params (s : State) : (correctCoarse s).params = s.params := by rw [correctCoarse_frame]
@[simp] theorem correctCoarse_pending (s : State) : (correctCoarse s).pending = s.pending := by rw [correctCoarse_frame]
@[simp] theorem correctCoarse_phase (s : State) : (correctCoarse s).phase = s.phase := by rw [correctCoarse_frame]
@[simp] theorem correctCoarse_cfgValid (s : State) : (correctCoarse s).cfgValid = s.cfgValid := by rw [correctCoarse_frame]
@[simp] theorem correctCoarse_errSeen (s : State) : (correctCoarse s).errSeen = s.errSeen := by rw [correctCoarse_frame]
@[simp] theorem correctCoarse_ovr (s : State) : (correctCoarse s).ovr = s.ovr := by rw [correctCoarse_frame]
@[simp] theorem correctCoarse_lastErr (s : State) : (correctCoarse s).lastErr = s.lastErr := by rw [correctCoarse_frame]
@[simp] theorem correctCoarse_result (s : State) : (correctCoarse s).result = s.result := by rw [correctCoarse_frame]
@[simp] theorem correctCoarse_packcfg (s : State) : (correctCoarse s).packcfg = s.packcfg := by rw [correctCoarse_frame]
@[simp] theorem correctCoarse_total (s : State) : (correctCoarse s).total = s.total := by rw [correctCoarse_frame]
@[simp] theorem correctCoarse_fine (s : State) : (correctCoarse s).fine = s.fine := by rw [correctCoarse_frame]
@[simp] theorem correctCoarse_map (s : State) : (correctCoarse s).map = s.map := by rw [correctCoarse_frame]
@[simp] theorem correctCoarse_sel (s : State) : (correctCoarse s).sel = s.sel := by rw [correctCoarse_frame]
@[simp] theorem correctCoarse_pal (s : State) : (correctCoarse s).pal = s.pal := by rw [correctCoarse_frame]
@[simp] theorem correctCoarse_inputs (s : State) : (correctCoarse s).inputs = s.inputs := by rw [correctCoarse_frame]
@[simp] theorem correctCoarse_replies (s : State) : (correctCoarse s).replies = s.replies := by rw [correctCoarse_frame]
@[simp] theorem correctCoarse_draws (s : State) : (correctCoarse s).draws = s.draws := by rw [correctCoarse_frame]

@[simp] theorem assignMap_params (s : State) : (assignMap s).params = s.params := by rw [assignMap_frame]
@[simp] theorem assignMap_pending (s : State) : (assignMap s).pending = s.pending := by rw [assignMap_frame]
@[simp] theorem assignMap_phase (s : State) : (assignMap s).phase = s.phase := by rw [assignMap_frame]
@[simp] theorem assignMap_cfgValid (s : State) : (assignMap s).cfgValid = s.cfgValid := by rw [assignMap_frame]
@[simp] theorem assignMap_errSeen (s : State) : (assignMap s).errSeen = s.errSeen := by rw [assignMap_frame]
@[simp] theorem assignMap_ovr (s : State) : (assignMap s).ovr = s.ovr := by rw [assignMap_frame]
@[simp] theorem assignMap_lastErr (s : State) : (assignMap s).lastErr = s.lastErr := by rw [assignMap_frame]
@[simp] theorem assignMap_result (s : State) : (assignMap s).result = s.result := by rw [assignMap_frame]
@[simp] theorem assignMap_packcfg (s : State) : (assignMap s).packcfg = s.packcfg := by rw [assignMap_frame]
@[simp] theorem assignMap_total (s : State) : (assignMap s).total = s.total := by rw [assignMap_frame]
@[simp] theorem assignMap_coarse (s : State) : (assignMap s).coarse = s.coarse := by rw [assignMap_frame]
@[simp] theorem assignMap_fine (s : State) : (assignMap s).fine = s.fine := by rw [assignMap_frame]
@[simp] theorem assignMap_sel (s : State) : (assignMap s).sel = s.sel := by rw [assignMap_frame]
@[simp] theorem assignMap_pal (s : State) : (assignMap s).pal = s.pal := by rw [assignMap_frame]
@[simp] theorem assignMap_inputs (s : State) : (assignMap s).inputs = s.inputs := by rw [assignMap_frame]
@[simp] theorem assignMap_replies (s : State) : (assignMap s).replies = s.replies := by rw [assignMap_frame]
@[simp] theorem assignMap_draws (s : State) : (assignMap s).draws = s.draws := by rw [assignMap_frame]

/-- The whole frame of BUILD's effect (10_state.md R46, 42_palette_builder.md R133, R134). -/
theorem buildPalette_frame (s : State) :
    buildPalette s = { s with
      sel := selection s.fine
      coarse := (correctCoarse (selectFine s)).coarse
      pal := newPalette (correctCoarse (selectFine s))
      map := (assignMap (averagePalette (correctCoarse (selectFine s)))).map
      phase := .built
      lastErr := .ok } := by
  unfold buildPalette
  rw [assignMap_frame]
  unfold averagePalette
  rw [correctCoarse_frame]
  rfl

@[simp] theorem buildPalette_params (s : State) : (buildPalette s).params = s.params := by rw [buildPalette_frame]
@[simp] theorem buildPalette_pending (s : State) : (buildPalette s).pending = s.pending := by rw [buildPalette_frame]
@[simp] theorem buildPalette_cfgValid (s : State) : (buildPalette s).cfgValid = s.cfgValid := by rw [buildPalette_frame]
@[simp] theorem buildPalette_errSeen (s : State) : (buildPalette s).errSeen = s.errSeen := by rw [buildPalette_frame]
@[simp] theorem buildPalette_ovr (s : State) : (buildPalette s).ovr = s.ovr := by rw [buildPalette_frame]
@[simp] theorem buildPalette_result (s : State) : (buildPalette s).result = s.result := by rw [buildPalette_frame]
@[simp] theorem buildPalette_packcfg (s : State) : (buildPalette s).packcfg = s.packcfg := by rw [buildPalette_frame]
@[simp] theorem buildPalette_total (s : State) : (buildPalette s).total = s.total := by rw [buildPalette_frame]
@[simp] theorem buildPalette_inputs (s : State) : (buildPalette s).inputs = s.inputs := by rw [buildPalette_frame]
@[simp] theorem buildPalette_replies (s : State) : (buildPalette s).replies = s.replies := by rw [buildPalette_frame]
@[simp] theorem buildPalette_draws (s : State) : (buildPalette s).draws = s.draws := by rw [buildPalette_frame]
@[simp] theorem buildPalette_phase (s : State) : (buildPalette s).phase = .built := by rw [buildPalette_frame]
@[simp] theorem buildPalette_lastErr (s : State) : (buildPalette s).lastErr = .ok := by rw [buildPalette_frame]
@[simp] theorem buildPalette_sel (s : State) : (buildPalette s).sel = selection s.fine := by rw [buildPalette_frame]
@[simp] theorem buildPalette_fine (s : State) : (buildPalette s).fine = s.fine := by rw [buildPalette_frame]
@[simp] theorem buildPalette_coarse (s : State) : (buildPalette s).coarse = (correctCoarse (selectFine s)).coarse := by
  rw [buildPalette_frame]
@[simp] theorem buildPalette_pal (s : State) : (buildPalette s).pal = newPalette (correctCoarse (selectFine s)) := by
  rw [buildPalette_frame]
@[simp] theorem buildPalette_map (s : State) :
    (buildPalette s).map = (assignMap (averagePalette (correctCoarse (selectFine s)))).map := by
  rw [buildPalette_frame]

theorem buildPalette_selAt (s : State) (r : Rank) : (buildPalette s).selAt r = (selectFine s).selAt r :=
  selAt_congr (by simp) r

theorem buildPalette_fineAt (s : State) (k : FineKey) : (buildPalette s).fineAt k = s.fineAt k :=
  fineAt_congr (by simp) k

theorem buildPalette_coarseAt (s : State) (c : CoarseKey) :
    (buildPalette s).coarseAt c = (correctCoarse (selectFine s)).coarseAt c :=
  coarseAt_congr (by simp) c

@[simp] theorem sel_foldl_correctRank (rs : List Rank) (s : State) (r : Rank) :
    (rs.foldl correctRank s).selAt r = s.selAt r := by
  rw [foldl_correctRank_frame]
  rfl

@[simp] theorem fine_foldl_correctRank (rs : List Rank) (s : State) (k : FineKey) :
    (rs.foldl correctRank s).fineAt k = s.fineAt k := by
  rw [foldl_correctRank_frame]
  rfl

/-- An exact subtraction where nothing underflows (42_palette_builder.md R125, R127). -/
theorem value_sub (b d : Bucket) (f : BucketField) (h : d.value f ≤ b.value f) :
    (b.sub d).value f = b.value f - d.value f := by
  cases f <;> exact BitVec.toNat_sub_of_le h

/-- What the selected buckets of some ranks take from a coarse bucket's field (42_palette_builder.md R125). -/
def takenBy (s : State) (rs : List Rank) (c : CoarseKey) (f : BucketField) : Nat :=
  (rs.map fun r => if parent (s.selAt r) = c then (s.fineAt (s.selAt r)).value f else 0).sum

/-- Step 2 subtracts from each coarse field what the ranks take from it, where that is not more than is there
(42_palette_builder.md R125, R127). -/
theorem value_foldl_correctRank (rs : List Rank) (s : State) (c : CoarseKey) (f : BucketField)
    (h : takenBy s rs c f ≤ (s.coarseAt c).value f) :
    ((rs.foldl correctRank s).coarseAt c).value f = (s.coarseAt c).value f - takenBy s rs c f := by
  induction rs generalizing s with
  | nil => simp [takenBy]
  | cons r rs ih =>
    have ht : takenBy (correctRank s r) rs c f = takenBy s rs c f := rfl
    have hc : takenBy s (r :: rs) c f =
        (if parent (s.selAt r) = c then (s.fineAt (s.selAt r)).value f else 0) + takenBy s rs c f := by
      simp [takenBy]
    have hat : (correctRank s r).coarseAt c = if c = parent (s.selAt r)
        then (s.coarseAt (parent (s.selAt r))).sub (s.fineAt (s.selAt r)) else s.coarseAt c :=
      coarseAt_setCoarse s _ _ _
    rw [List.foldl_cons]
    by_cases hp : parent (s.selAt r) = c
    · have hv : ((correctRank s r).coarseAt c).value f =
          (s.coarseAt c).value f - (s.fineAt (s.selAt r)).value f := by
        rw [hat, if_pos hp.symm, hp]
        exact value_sub _ _ _ (by rw [hc, if_pos hp] at h; omega)
      rw [hc, if_pos hp] at h ⊢
      rw [ih _ (by rw [ht, hv]; omega), ht, hv]
      omega
    · have hv : (correctRank s r).coarseAt c = s.coarseAt c := by
        rw [hat, if_neg (fun e => hp e.symm)]
      rw [hc, if_neg hp, Nat.zero_add] at h ⊢
      rw [ih _ (by rw [ht, hv]; exact h), ht, hv]

/-- A map entry that no rank of the list names stays (42_palette_builder.md R130). -/
theorem mapAt_foldl_assignRank_other (rs : List Rank) (s : State) (k : FineKey) (h : ∀ r ∈ rs, s.selAt r ≠ k) :
    (rs.foldl assignRank s).mapAt k = s.mapAt k := by
  induction rs generalizing s with
  | nil => rfl
  | cons r rs ih =>
    have hr : (s.selAt r).toNat ≠ k.toNat := fun e => h r (by simp) (BitVec.eq_of_toNat_eq e)
    rw [List.foldl_cons, ih (assignRank s r) fun r' hr' => h r' (by simp [hr'])]
    simp [State.mapAt, assignRank, Vector.getElem_set_ne, hr]

/-- The entry of a rank's key is that rank's, the selected keys being distinct (42_palette_builder.md R130). -/
theorem mapAt_foldl_assignRank_mem (rs : List Rank) (s : State) (r : Rank) (hr : r ∈ rs)
    (hi : ∀ a b, s.selAt a = s.selAt b → a = b) :
    (rs.foldl assignRank s).mapAt (s.selAt r) = MapEntry.assigned (64#8 + r.setWidth 8) := by
  induction rs generalizing s with
  | nil => simp at hr
  | cons q rs ih =>
    rw [List.foldl_cons]
    by_cases hm : r ∈ rs
    · exact ih (assignRank s q) hm hi
    · have hq : r = q := by simpa [hm] using hr
      subst hq
      rw [mapAt_foldl_assignRank_other rs (assignRank s r) _ fun r' hr' e => hm ((hi r' r e) ▸ hr')]
      simp [State.mapAt, assignRank]

theorem getElem_newPalette (s : State) (i : Nat) (h : i < 192) : (newPalette s)[i] = paletteEntry s ⟨i, h⟩ := by
  unfold newPalette
  simp

/-- After step 2 a coarse field holds what the selected buckets leave of it (42_palette_builder.md R125, R127). -/
theorem value_correctCoarse (s : State) (c : CoarseKey) (f : BucketField)
    (h : takenBy s ranks c f ≤ (s.coarseAt c).value f) :
    ((correctCoarse s).coarseAt c).value f = (s.coarseAt c).value f - takenBy s ranks c f := by
  unfold correctCoarse
  exact value_foldl_correctRank ranks s c f h

theorem correctCoarse_selAt (s : State) (r : Rank) : (correctCoarse s).selAt r = s.selAt r := selAt_congr (by simp) r

theorem correctCoarse_fineAt (s : State) (k : FineKey) : (correctCoarse s).fineAt k = s.fineAt k :=
  fineAt_congr (by simp) k

theorem averagePalette_selAt (s : State) (r : Rank) : (averagePalette s).selAt r = s.selAt r := rfl

theorem averagePalette_mapAt (s : State) (k : FineKey) : (averagePalette s).mapAt k = s.mapAt k := rfl

theorem selectFine_mapAt (s : State) (k : FineKey) : (selectFine s).mapAt k = s.mapAt k := rfl

theorem correctCoarse_mapAt (s : State) (k : FineKey) : (correctCoarse s).mapAt k = s.mapAt k := mapAt_congr (by simp) k

/-- Step 4 assigns every selected key, the selected keys being distinct (42_palette_builder.md R130). -/
theorem assignMap_mapAt_selAt (s : State) (r : Rank) (hi : ∀ a b, s.selAt a = s.selAt b → a = b) :
    (assignMap s).mapAt (s.selAt r) = MapEntry.assigned (64#8 + r.setWidth 8) := by
  unfold assignMap
  exact mapAt_foldl_assignRank_mem ranks s r (mem_ranks r) hi

/-- Step 4 leaves every other key's entry (42_palette_builder.md R130). -/
theorem assignMap_mapAt_other (s : State) (k : FineKey) (h : ∀ r, s.selAt r ≠ k) :
    (assignMap s).mapAt k = s.mapAt k := by
  unfold assignMap
  exact mapAt_foldl_assignRank_other ranks s k fun r _ => h r

/-- What step 4 starts from has BUILD's selection. -/
theorem averaged_selAt (s : State) (r : Rank) :
    (averagePalette (correctCoarse (selectFine s))).selAt r = (selectFine s).selAt r :=
  (averagePalette_selAt _ r).trans (correctCoarse_selAt _ r)

/-- What step 4 starts from has the map that BUILD found. -/
theorem averaged_mapAt (s : State) (k : FineKey) :
    (averagePalette (correctCoarse (selectFine s))).mapAt k = s.mapAt k :=
  (averagePalette_mapAt _ k).trans ((correctCoarse_mapAt _ k).trans (selectFine_mapAt s k))

theorem buildPalette_mapAt (s : State) (k : FineKey) :
    (buildPalette s).mapAt k = (assignMap (averagePalette (correctCoarse (selectFine s)))).mapAt k :=
  mapAt_congr (buildPalette_map s) k

/-- After BUILD a selected key's map entry is 64 plus its rank (42_palette_builder.md R130). -/
theorem buildPalette_mapAt_selAt (s : State) (r : Rank) :
    (buildPalette s).mapAt ((buildPalette s).selAt r) = MapEntry.assigned (64#8 + r.setWidth 8) := by
  rw [buildPalette_selAt, buildPalette_mapAt, ← averaged_selAt]
  refine assignMap_mapAt_selAt _ r fun a b h => ?_
  rw [averaged_selAt, averaged_selAt] at h
  exact selAt_selectFine_inj s a b h

/-- BUILD leaves the map entry of a key it does not select (42_palette_builder.md R130). -/
theorem buildPalette_mapAt_other (s : State) (k : FineKey) (h : ∀ r, (buildPalette s).selAt r ≠ k) :
    (buildPalette s).mapAt k = s.mapAt k := by
  rw [buildPalette_mapAt, assignMap_mapAt_other, averaged_mapAt]
  intro r
  rw [averaged_selAt, ← buildPalette_selAt]
  exact h r

/-- The palette entries that BUILD writes (42_palette_builder.md R129, R130). -/
theorem buildPalette_palAt (s : State) (i : Nat) (h : i < 192) :
    (buildPalette s).palAt i = paletteColour s.params.palW.bits (layoutOf s.packcfg)
      (if i < 64 then (buildPalette s).coarseAt (BitVec.ofNat 6 i)
       else s.fineAt ((buildPalette s).selAt (BitVec.ofNat 7 (i - 64)))) := by
  rw [palAt_of_lt _ i h]
  simp only [buildPalette_pal]
  rw [getElem_newPalette]
  simp only [paletteEntry, correctCoarse_params, correctCoarse_packcfg, selectFine_params, selectFine_packcfg,
    correctCoarse_fineAt, correctCoarse_selAt, buildPalette_coarseAt, buildPalette_selAt]
  rfl

/-- A sum over the list of the numbers below `n` is the sum over that range. -/
theorem sum_map_range (f : Nat → Nat) (n : Nat) : ((List.range n).map f).sum = ∑ i ∈ Finset.range n, f i := rfl

/-- A sum over the list of ranks is the sum over the ranks. -/
theorem sum_map_ranks (f : Rank → Nat) : (ranks.map f).sum = sumRanks f := by
  unfold ranks sumRanks
  rw [List.map_map, sum_map_range, Finset.sum_range]
  refine Finset.sum_congr rfl fun i _ => congrArg f (BitVec.eq_of_toNat_eq ?_)
  exact Nat.mod_eq_of_lt i.isLt

/-- What all ranks take from a coarse field (42_palette_builder.md R125). -/
theorem takenBy_ranks (s : State) (c : CoarseKey) (f : BucketField) : takenBy s ranks c f =
    sumRanks fun r => if parent (s.selAt r) = c then (s.fineAt (s.selAt r)).value f else 0 :=
  sum_map_ranks _

/-- A sum over the ranks of the selected keys is the sum over those keys, they being distinct (10_state.md R40). -/
theorem sumRanks_selAt (s : State) (hi : ∀ a b, s.selAt a = s.selAt b → a = b) (g : FineKey → Nat) :
    (sumRanks fun r => g (s.selAt r)) = sumFine fun k => if s.selected k = true then g k else 0 := by
  unfold sumRanks sumFine
  rw [← Finset.sum_filter]
  refine Finset.sum_nbij (fun r => (s.selAt (BitVec.ofFin r)).toFin) ?_ ?_ ?_ ?_
  · intro r _
    simp only [Finset.mem_filter, Finset.mem_univ, true_and]
    exact (selected_iff s _).2 ⟨BitVec.ofFin r, rfl⟩
  · intro a _ b _ h
    have := hi _ _ (congrArg BitVec.ofFin h)
    exact congrArg BitVec.toFin this
  · intro k hk
    simp only [Finset.coe_filter, Finset.mem_univ, true_and, Set.mem_ofPred_eq] at hk
    obtain ⟨r, hr⟩ := (selected_iff s _).1 hk
    exact ⟨r.toFin, by simp, congrArg BitVec.toFin hr⟩
  · intro r _
    rfl

/-- A sum splits into the selected keys and the others. -/
theorem sumFine_split (p : FineKey → Bool) (g : FineKey → Nat) :
    sumFine g = (sumFine fun k => if p k = true then g k else 0) + sumFine fun k => if p k = false then g k else 0 := by
  unfold sumFine
  rw [← Finset.sum_add_distrib]
  refine Finset.sum_congr rfl fun k _ => ?_
  by_cases h : p (BitVec.ofFin k) = true <;> simp [h]

/-- A sum over the fine keys is the sum over the coarse keys of the sums over their children (00_scope.md R16). -/
theorem sumFine_by_parent (g : FineKey → Nat) :
    sumFine g = sumCoarse fun c => sumFine fun k => if parent k = c then g k else 0 := by
  unfold sumFine sumCoarse
  rw [Finset.sum_comm]
  refine Finset.sum_congr rfl fun k _ => ?_
  rw [Finset.sum_eq_single (parent (BitVec.ofFin k)).toFin]
  · simp
  · intro c _ hc
    exact if_neg fun h => hc (congrArg BitVec.toFin h.symm)
  · simp

/-- No summand exceeds its sum. -/
theorem le_sumFine (f : FineKey → Nat) (k : FineKey) : f k ≤ sumFine f := by
  unfold sumFine
  exact Finset.single_le_sum (f := fun i : Fin 4096 => f (BitVec.ofFin i)) (fun _ _ => Nat.zero_le _)
    (Finset.mem_univ (k.toFin : Fin 4096))

theorem le_sumCoarse (f : CoarseKey → Nat) (c : CoarseKey) : f c ≤ sumCoarse f := by
  unfold sumCoarse
  exact Finset.single_le_sum (f := fun i : Fin 64 => f (BitVec.ofFin i)) (fun _ _ => Nat.zero_le _)
    (Finset.mem_univ (c.toFin : Fin 64))

theorem sumFine_const (n : Nat) : (sumFine fun _ => n) = 4096 * n := by
  unfold sumFine
  rw [Finset.sum_const, Finset.card_univ, Fintype.card_fin, smul_eq_mul]

theorem sumRanks_const (n : Nat) : (sumRanks fun _ => n) = 128 * n := by
  unfold sumRanks
  rw [Finset.sum_const, Finset.card_univ, Fintype.card_fin, smul_eq_mul]

theorem sumCoarse_const (n : Nat) : (sumCoarse fun _ => n) = 64 * n := by
  unfold sumCoarse
  rw [Finset.sum_const, Finset.card_univ, Fintype.card_fin, smul_eq_mul]

/-- Sums are compared summand by summand. -/
theorem sumFine_le_sumFine (f g : FineKey → Nat) (h : ∀ k, f k ≤ g k) : sumFine f ≤ sumFine g := by
  unfold sumFine
  exact Finset.sum_le_sum fun i _ => h (BitVec.ofFin i)

/-- A sum whose summand grows by `d` at one place grows by `d`. -/
theorem sum_bump {n : Nat} (f : Fin n → Nat) (i : Fin n) (d : Nat) :
    (∑ j, (f j + if j = i then d else 0)) = (∑ j, f j) + d := by
  rw [Finset.sum_add_distrib, Finset.sum_ite_eq' Finset.univ i, if_pos (Finset.mem_univ i)]

/-- A sum over the fine keys after one key's summand grew by `d` (41_accumulator.md R105). -/
theorem sumFine_bump (f g : FineKey → Nat) (k : FineKey) (d : Nat)
    (h : ∀ j, g j = if j = k then f j + d else f j) : sumFine g = sumFine f + d := by
  unfold sumFine
  rw [← sum_bump _ k.toFin d]
  refine Finset.sum_congr rfl fun j _ => ?_
  rw [h]
  by_cases hj : BitVec.ofFin j = k
  · rw [if_pos hj, if_pos (congrArg BitVec.toFin hj)]
  · rw [if_neg hj, if_neg fun e => hj (congrArg BitVec.ofFin e), Nat.add_zero]

/-- A sum over the coarse keys after one key's summand grew by `d` (41_accumulator.md R105). -/
theorem sumCoarse_bump (f g : CoarseKey → Nat) (k : CoarseKey) (d : Nat)
    (h : ∀ j, g j = if j = k then f j + d else f j) : sumCoarse g = sumCoarse f + d := by
  unfold sumCoarse
  rw [← sum_bump _ k.toFin d]
  refine Finset.sum_congr rfl fun j _ => ?_
  rw [h]
  by_cases hj : BitVec.ofFin j = k
  · rw [if_pos hj, if_pos (congrArg BitVec.toFin hj)]
  · rw [if_neg hj, if_neg fun e => hj (congrArg BitVec.ofFin e), Nat.add_zero]

end Sys2Proof.Machine
end

