-- ==== Sys2Proof/Laws/Exec.lean ====
section
/-! SUPPORT. What the execution of a command can do, said once: it always has a next state, which is either an error's
(60_exceptions.md R192) or the command's own effect (10_state.md R46). -/

namespace Sys2Proof.Machine

/-- The commands that answer in RESULT (10_state.md R31). -/
def Answers (s : State) (v : BitVec 64) : Instr → Prop
  | .lookup pix => s.phase = .built ∧ v = (paletteIndex s pix).setWidth 64
  | .rdcoarse idx fld => s.phase ≠ .uninit ∧ v = (s.coarseAt idx).field fld
  | .rdfine idx fld => s.phase ≠ .uninit ∧ v = (s.fineAt idx).field fld
  | .rdmap idx => s.phase ≠ .uninit ∧ v = (s.mapAt idx).bits.setWidth 64
  | .rdsel rank => s.phase = .built ∧ v = (s.selAt rank).setWidth 64
  | .rdpal idx => s.phase = .built ∧ idx.toNat < 192 ∧ v = (s.palAt idx.toNat).setWidth 64
  | _ => False

/-- Everything the execution of a command can do. -/
theorem exec_cases (i : Instr) (s : State) :
    (∃ e, e ≠ .ok ∧ exec i s = .next (s.raise e)) ∨
    (i = .nop ∧ exec i s = .next s.succeed) ∨
    (i = .reset ∧ exec i s = .next (resetImage s)) ∨
    (∃ rw ro gw go bw bo, i = .config rw ro gw go bw bo ∧
      (configLayout rw ro gw go bw bo).legal s.params.palW.bits = true ∧
      exec i s = .next (acceptConfig (configWord rw ro gw go bw bo) s)) ∨
    (∃ pix, i = .observe pix ∧ s.phase = .accum ∧ s.total ≠ 0xFFFFFFFF#32 ∧ exec i s = .next (observePixel pix s)) ∨
    (i = .build ∧ s.phase = .accum ∧ s.cfgValid = true ∧ exec i s = .next (buildPalette s)) ∨
    (∃ v, Answers s v i ∧ exec i s = .next (s.answer v)) := by
  cases i with
  | nop => exact .inr (.inl ⟨rfl, rfl⟩)
  | reset => exact .inr (.inr (.inl ⟨rfl, rfl⟩))
  | config rw ro gw go bw bo =>
    by_cases h : (configLayout rw ro gw go bw bo).legal s.params.palW.bits = true
    · refine .inr (.inr (.inr (.inl ⟨rw, ro, gw, go, bw, bo, rfl, h, ?_⟩)))
      simp [exec, execConfig, State.guardPhase, permitted, h]
    · exact .inl ⟨.badCfg, by decide, by simp [exec, execConfig, State.guardPhase, permitted, h]⟩
  | observe pix =>
    by_cases hp : s.phase = .accum
    · by_cases ht : s.total = 0xFFFFFFFF#32
      · exact .inl ⟨.overflow, by decide, by simp [exec, execObserve, State.guardPhase, permitted, hp, ht]⟩
      · refine .inr (.inr (.inr (.inr (.inl ⟨pix, rfl, hp, ht, ?_⟩))))
        simp [exec, execObserve, State.guardPhase, permitted, hp, ht]
    · exact .inl ⟨.phase, by decide, by simp [exec, execObserve, State.guardPhase, permitted, hp]⟩
  | build =>
    by_cases hp : s.phase = .accum
    · by_cases hc : s.cfgValid = true
      · refine .inr (.inr (.inr (.inr (.inr (.inl ⟨rfl, hp, hc, ?_⟩)))))
        simp [exec, execBuild, State.guardPhase, permitted, hp, hc]
      · exact .inl ⟨.noCfg, by decide, by simp [exec, execBuild, State.guardPhase, permitted, hp, hc]⟩
    · exact .inl ⟨.phase, by decide, by simp [exec, execBuild, State.guardPhase, permitted, hp]⟩
  | lookup pix =>
    by_cases hp : s.phase = .built
    · exact .inr (.inr (.inr (.inr (.inr (.inr ⟨_, ⟨hp, rfl⟩,
        by simp [exec, execLookup, State.guardPhase, permitted, hp]⟩)))))
    · exact .inl ⟨.phase, by decide, by simp [exec, execLookup, State.guardPhase, permitted, hp]⟩
  | rdcoarse idx fld =>
    by_cases hp : s.phase = .uninit
    · exact .inl ⟨.phase, by decide, by simp [exec, execRdcoarse, State.guardPhase, permitted, hp]⟩
    · exact .inr (.inr (.inr (.inr (.inr (.inr ⟨_, ⟨hp, rfl⟩,
        by simp [exec, execRdcoarse, State.guardPhase, permitted, hp]⟩)))))
  | rdfine idx fld =>
    by_cases hp : s.phase = .uninit
    · exact .inl ⟨.phase, by decide, by simp [exec, execRdfine, State.guardPhase, permitted, hp]⟩
    · exact .inr (.inr (.inr (.inr (.inr (.inr ⟨_, ⟨hp, rfl⟩,
        by simp [exec, execRdfine, State.guardPhase, permitted, hp]⟩)))))
  | rdmap idx =>
    by_cases hp : s.phase = .uninit
    · exact .inl ⟨.phase, by decide, by simp [exec, execRdmap, State.guardPhase, permitted, hp]⟩
    · exact .inr (.inr (.inr (.inr (.inr (.inr ⟨_, ⟨hp, rfl⟩,
        by simp [exec, execRdmap, State.guardPhase, permitted, hp]⟩)))))
  | rdsel rank =>
    by_cases hp : s.phase = .built
    · exact .inr (.inr (.inr (.inr (.inr (.inr ⟨_, ⟨hp, rfl⟩,
        by simp [exec, execRdsel, State.guardPhase, permitted, hp]⟩)))))
    · exact .inl ⟨.phase, by decide, by simp [exec, execRdsel, State.guardPhase, permitted, hp]⟩
  | rdpal idx =>
    by_cases hp : s.phase = .built
    · by_cases hi : 192 ≤ idx.toNat
      · exact .inl ⟨.range, by decide, by simp [exec, execRdpal, State.guardPhase, permitted, hp, hi]⟩
      · exact .inr (.inr (.inr (.inr (.inr (.inr ⟨_, ⟨hp, by omega, rfl⟩,
          by simp [exec, execRdpal, State.guardPhase, permitted, hp, hi]⟩)))))
    · exact .inl ⟨.phase, by decide, by simp [exec, execRdpal, State.guardPhase, permitted, hp]⟩

/-- Every command has a next state in every state. -/
theorem exec_next (i : Instr) (s : State) : ∃ t, exec i s = .next t := by
  rcases exec_cases i s with ⟨e, -, h⟩ | ⟨-, h⟩ | ⟨-, h⟩ | ⟨_, _, _, _, _, _, -, -, h⟩ | ⟨_, -, -, -, h⟩ |
    ⟨-, -, -, h⟩ | ⟨_, -, h⟩ <;> exact ⟨_, h⟩

end Sys2Proof.Machine
end

