-- ==== Sys2Proof/Laws/Step.lean ====
section
/-! SUPPORT. What a step can do, said once: the engine executes the pending word, or a host reads, or a host writes, or the
hardware is reset (70_reset_and_hazards.md R220, R230; 20_memory.md R63, R64). -/

namespace Sys2Proof.Machine

/-- Executing a word always has a next state: its command's, or ERR_ILLEGAL's (60_exceptions.md R191). -/
theorem execWord_cases (w : Word) (s : State) :
    (∃ i t, decode w = .ok i ∧ exec i s = .next t ∧ execWord w s = .next t) ∨
    (∃ x, decode w = .error x ∧ execWord w s = .next (s.raise .illegal)) := by
  cases h : decode w with
  | ok i =>
    obtain ⟨t, ht⟩ := exec_next i s
    exact .inl ⟨i, t, rfl, ht, by simp [execWord, h, ht]⟩
  | error x => exact .inr ⟨x, rfl, by simp [execWord, h]⟩

/-- What the engine's turn answers (70_reset_and_hazards.md R230). -/
theorem engineTurn_cases (s t : State) (h : engineTurn s = .next t) :
    ∃ w, s.pending = some w ∧
      ((∃ i u, decode w = .ok i ∧ exec i s = .next u ∧ t = u.complete) ∨
       (∃ x, decode w = .error x ∧ t = (s.raise .illegal).complete)) := by
  cases hp : s.pending with
  | none => simp [engineTurn, hp] at h
  | some w =>
    refine ⟨w, rfl, ?_⟩
    simp only [engineTurn, hp] at h
    rcases execWord_cases w s with ⟨i, u, hd, he, hw⟩ | ⟨x, hd, hw⟩
    · rw [hw] at h
      exact .inl ⟨i, u, hd, he, by simpa [completeOutcome] using h.symm⟩
    · rw [hw] at h
      exact .inr ⟨x, hd, by simpa [completeOutcome] using h.symm⟩

/-- In the engine's turn a step is the engine's (70_reset_and_hazards.md R230). -/
theorem step_of_engineNext (s : State) (h : s.engineNext) : step s = engineTurn s.popInput := by
  rcases h with h | h <;> simp [step, h]

/-- Everything a step that answers a next state can have done. -/
theorem step_cases (s t : State) (h : step s = .next t) :
    (s.engineNext ∧ engineTurn s.popInput = .next t) ∨
    (∃ host addr size r, s.inputs.head? = some (.memRead host addr size) ∧ accessedReg s.params addr size = some r ∧
      t = { s.popInput with replies := ⟨host, addr, readReg s r⟩ :: s.replies, draws := s.draws + 1 }) ∨
    (∃ host addr size w r, s.inputs.head? = some (.memWrite host addr size w) ∧
      accessedReg s.params addr size = some r ∧
      (r = .cmd ∧ t = issue w s.popInput ∨ r ≠ .cmd ∧ t = s.popInput)) ∨
    (s.resetNext ∧ t = hardwareReset s.popInput) := by
  unfold step at h
  split at h
  · rename_i hi
    exact .inl ⟨.inl (List.head?_eq_none_iff.1 hi), h⟩
  · rename_i hi
    exact .inl ⟨.inr hi, h⟩
  · rename_i host addr size hi
    simp only [hostRead] at h
    split at h
    · cases h
    · rename_i r hr
      injection h with h
      exact .inr (.inl ⟨host, addr, size, r, hi, hr, h.symm⟩)
  · rename_i host addr size w hi
    simp only [hostWrite] at h
    split at h
    · cases h
    · rename_i hr
      injection h with h
      exact .inr (.inr (.inl ⟨host, addr, size, w, .cmd, hi, hr, .inl ⟨rfl, h.symm⟩⟩))
    · rename_i r hne hr
      injection h with h
      exact .inr (.inr (.inl ⟨host, addr, size, w, r, hi, hr, .inr ⟨hne, h.symm⟩⟩))
  · rename_i hi
    injection h with h
    exact .inr (.inr (.inr ⟨hi, h.symm⟩))

end Sys2Proof.Machine
end

