-- ==== Sys2Proof/Laws/Bus.lean ====
section
/-! SUPPORT. Which register an access reaches (20_memory.md R60, R66). -/

namespace Sys2Proof.Machine

/-- An aligned word access of the window reaches the register at its offset (20_memory.md R60). -/
theorem accessedReg_offset (p : Params) (off : Nat) (h : off ≤ 0x3C) (h4 : off % 4 = 0) :
    accessedReg p (base p + off) 4 = some (regAtOffset off) := by
  simp [accessedReg, h, h4]

/-- Only an aligned word access of the window reaches a register (20_memory.md R60, R66). -/
theorem accessedReg_eq_some (p : Params) (addr size : Nat) (r : WindowReg) :
    accessedReg p addr size = some r ↔
      ∃ off, off ≤ 0x3C ∧ off % 4 = 0 ∧ addr = base p + off ∧ size = 4 ∧ r = regAtOffset off := by
  constructor
  · intro h
    unfold accessedReg at h
    split at h
    · rename_i hc
      obtain ⟨h1, h2, h3, h4⟩ := hc
      injection h with h
      exact ⟨addr - base p, h3, h4, by omega, h1, h.symm⟩
    · cases h
  · rintro ⟨off, h1, h2, rfl, rfl, rfl⟩
    exact accessedReg_offset p off h1 h2

/-- Of the window's offsets only 0 is CMD's (10_state.md R22). -/
theorem regAtOffset_eq_cmd (off : Nat) : regAtOffset off = .cmd ↔ off = 0 := by
  unfold regAtOffset
  split <;> simp_all
  repeat' split
  all_goals simp

end Sys2Proof.Machine
end

