-- ==== Sys2Proof/Laws/PerInstr.lean ====
section
/-! SUPPORT. Per-instruction laws. Family EncodesRow: a command's word has its own row's pattern under that row's mask and
no other row's (30_encoding.md R81, R83). -/

namespace Sys2Proof.Laws

/-- The four bits of `OP` that an opcode's row has (30_encoding.md R83). -/
def opBits : Opcode → BitVec 4
  | .nop => 0x0#4
  | .reset => 0x1#4
  | .config => 0x2#4
  | .observe => 0x3#4
  | .build => 0x4#4
  | .lookup => 0x5#4
  | .rdcoarse => 0x6#4
  | .rdfine => 0x7#4
  | .rdmap => 0x8#4
  | .rdsel => 0x9#4
  | .rdpal => 0xA#4

/-- Whether a row hits a word is a matter of the word's bits under the mask, so a row with another `OP` never hits
(30_encoding.md R83). -/
theorem op_of_hits (op : Opcode) (w : Word) (h : (rowOf op).hits w = true) : w.extractLsb' 28 4 = opBits op := by
  have h : w &&& (rowOf op).mask = (rowOf op).pattern := by simpa [OpRow.hits] using h
  have h' := congrArg (fun v : Word => v.extractLsb' 28 4) h
  have h15 : ∀ x : BitVec 4, x &&& 15#4 = x := by decide
  cases op <;> simpa [rowOf, opBits, BitVec.extractLsb'_and, h15] using h'

theorem opBits_injective (a b : Opcode) (h : opBits a = opBits b) : a = b := by
  revert h; cases a <;> cases b <;> decide

/-- If an opcode's row hits a word, the opcode map finds that row (30_encoding.md R83, R86). -/
theorem find_of_hits (op : Opcode) (w : Word) (h : (rowOf op).hits w = true) :
    opcodeMap.find? (fun r => r.hits w) = some (rowOf op) := by
  have hn : ∀ op', op' ≠ op → (rowOf op').hits w = false := by
    intro op' hne
    by_contra hh
    exact hne (opBits_injective _ _ ((op_of_hits op' w (by simpa using hh)).symm.trans (op_of_hits op w h)))
  cases op <;> simp [opcodeMap, opcodes, List.find?, h, hn]

/-- A word that a row hits decodes to that row's command with its operands (30_encoding.md R82, R86). -/
theorem decode_of_hits (op : Opcode) (w : Word) (h : (rowOf op).hits w = true) : decode w = .ok (operands op w) := by
  have hop : (rowOf op).op = op := by cases op <;> rfl
  simp [decode, find_of_hits op w h, hop]

namespace EncodesRow

/-- A command's word is hit by its own row (30_encoding.md R81, R83). -/
def Statement (i : Instr) : Prop := (rowOf i.op).hits (encode i) = true

theorem nop : Statement .nop := by unfold Statement; decide
theorem reset : Statement .reset := by unfold Statement; decide
theorem build : Statement .build := by unfold Statement; decide

theorem config (rw : BitVec 4) (ro : BitVec 5) (gw : BitVec 4) (go : BitVec 5) (bw : BitVec 4) (bo : BitVec 5) :
    Statement (.config rw ro gw go bw bo) := by
  simp only [Statement, OpRow.hits, rowOf, Instr.op, encode, configWord, beq_iff_eq]
  apply BitVec.eq_of_getLsbD_eq
  intro i hi
  simp only [BitVec.getLsbD_and, BitVec.getLsbD_append]
  interval_cases i <;> simp

theorem observe (pix : Pixel) : Statement (.observe pix) := by
  simp only [Statement, OpRow.hits, rowOf, Instr.op, encode, beq_iff_eq]
  apply BitVec.eq_of_getLsbD_eq
  intro i hi
  simp only [BitVec.getLsbD_and, BitVec.getLsbD_append]
  interval_cases i <;> simp

theorem lookup (pix : Pixel) : Statement (.lookup pix) := by
  simp only [Statement, OpRow.hits, rowOf, Instr.op, encode, beq_iff_eq]
  apply BitVec.eq_of_getLsbD_eq
  intro i hi
  simp only [BitVec.getLsbD_and, BitVec.getLsbD_append]
  interval_cases i <;> simp

theorem rdcoarse (idx : CoarseKey) (fld : BucketField) : Statement (.rdcoarse idx fld) := by
  simp only [Statement, OpRow.hits, rowOf, Instr.op, encode, beq_iff_eq]
  apply BitVec.eq_of_getLsbD_eq
  intro i hi
  simp only [BitVec.getLsbD_and, BitVec.getLsbD_append]
  interval_cases i <;> simp

theorem rdfine (idx : FineKey) (fld : BucketField) : Statement (.rdfine idx fld) := by
  simp only [Statement, OpRow.hits, rowOf, Instr.op, encode, beq_iff_eq]
  apply BitVec.eq_of_getLsbD_eq
  intro i hi
  simp only [BitVec.getLsbD_and, BitVec.getLsbD_append]
  interval_cases i <;> simp

theorem rdmap (idx : FineKey) : Statement (.rdmap idx) := by
  simp only [Statement, OpRow.hits, rowOf, Instr.op, encode, beq_iff_eq]
  apply BitVec.eq_of_getLsbD_eq
  intro i hi
  simp only [BitVec.getLsbD_and, BitVec.getLsbD_append]
  interval_cases i <;> simp

theorem rdsel (rank : Rank) : Statement (.rdsel rank) := by
  simp only [Statement, OpRow.hits, rowOf, Instr.op, encode, beq_iff_eq]
  apply BitVec.eq_of_getLsbD_eq
  intro i hi
  simp only [BitVec.getLsbD_and, BitVec.getLsbD_append]
  interval_cases i <;> simp

theorem rdpal (idx : BitVec 8) : Statement (.rdpal idx) := by
  simp only [Statement, OpRow.hits, rowOf, Instr.op, encode, beq_iff_eq]
  apply BitVec.eq_of_getLsbD_eq
  intro i hi
  simp only [BitVec.getLsbD_and, BitVec.getLsbD_append]
  interval_cases i <;> simp

end EncodesRow
end Sys2Proof.Laws
end

