-- ==== Sys2Proof/Machine/Assembler.lean ====
section
/-! DEFINITION. The assembler syntax, one command per line, and the pseudo-commands (30_encoding.md R87, R88). The block
itself never sees a line: a line's command is what `encode` then turns into a word. -/

namespace Sys2Proof.Machine

/-- A piece of a line: a name or number, or one of the signs `,`, `=`, `@`. -/
inductive AsmToken where
  | word (cs : List Char)
  | sign (c : Char)
deriving DecidableEq, Repr

/-- What a line holds. -/
inductive AsmLine where
  /-- Nothing but white space and a comment. -/
  | blank
  | command (i : Instr)
  /-- No line of R87 or R88. -/
  | error
deriving DecidableEq, Repr

/-- The value of a digit in either case, if it is below the number base (30_encoding.md R87). -/
def digitValue (numberBase : Nat) (c : Char) : Option Nat :=
  let n := c.toNat
  let v := if 48 ≤ n ∧ n ≤ 57 then some (n - 48)
    else if 97 ≤ n ∧ n ≤ 102 then some (n - 87)
    else if 65 ≤ n ∧ n ≤ 70 then some (n - 55)
    else none
  v.filter (fun d => decide (d < numberBase))

/-- The number that digits spell after the value read so far. -/
def digitsValue (numberBase : Nat) : Nat → List Char → Option Nat
  | acc, [] => some acc
  | acc, c :: cs => (digitValue numberBase c).bind fun d => digitsValue numberBase (acc * numberBase + d) cs

/-- A decimal or `0x` hexadecimal number (30_encoding.md R87). -/
def asmNumber : List Char → Option Nat
  | [] => none
  | '0' :: 'x' :: c :: cs => digitsValue 16 0 (c :: cs)
  | cs => digitsValue 10 0 cs

/-- A number that fits an operand field of `n` bits. -/
def asmField (n : Nat) (cs : List Char) : Option (BitVec n) :=
  (asmNumber cs).bind fun v => if v < 2 ^ n then some (BitVec.ofNat n v) else none

/-- The `fld` operand: `count`, `r`, `g` or `b` (30_encoding.md R87). -/
def asmFld (cs : List Char) : Option BucketField :=
  if cs = ['c', 'o', 'u', 'n', 't'] then some .count
  else if cs = ['r'] then some .red
  else if cs = ['g'] then some .green
  else if cs = ['b'] then some .blue
  else none

/-- A finished name or number stands before the tokens that follow it. -/
def pushWord (cur : List Char) (ts : List AsmToken) : List AsmToken :=
  if cur = [] then ts else .word cur :: ts

/-- The tokens of a line, `cur` being the name or number under way; `;` starts a comment (30_encoding.md R87). -/
def asmTokens (cur : List Char) : List Char → Option (List AsmToken)
  | [] => some (pushWord cur [])
  | c :: cs =>
    if c = ';' then some (pushWord cur [])
    else if c = ' ' ∨ c = '\t' then (asmTokens [] cs).map (pushWord cur)
    else if c = ',' ∨ c = '=' ∨ c = '@' then (asmTokens [] cs).map fun ts => pushWord cur (.sign c :: ts)
    else if c.isAlphanum ∨ c = '.' then asmTokens (cur ++ [c]) cs
    else none

/-- One channel of a `CONFIG` line, `x=W@O`, and the tokens after it (30_encoding.md R87). -/
def asmChannel (name : Char) : List AsmToken → Option ((BitVec 4 × BitVec 5) × List AsmToken)
  | .word n :: .sign e :: .word w :: .sign a :: .word o :: rest =>
    if n = [name] ∧ e = '=' ∧ a = '@' then
      (asmField 4 w).bind fun w => (asmField 5 o).map fun o => ((w, o), rest)
    else none
  | _ => none

/-- The tokens after a comma. -/
def asmComma : List AsmToken → Option (List AsmToken)
  | .sign c :: rest => if c = ',' then some rest else none
  | _ => none

/-- The operands of a `CONFIG` line (30_encoding.md R87). -/
def asmConfig (ts : List AsmToken) : Option Instr :=
  (asmChannel 'r' ts).bind fun r => (asmComma r.2).bind fun ts =>
  (asmChannel 'g' ts).bind fun g => (asmComma g.2).bind fun ts =>
  (asmChannel 'b' ts).bind fun b =>
    if b.2 = [] then some (.config r.1.1 r.1.2 g.1.1 g.1.2 b.1.1 b.1.2) else none

/-- A command without operands, by its name (30_encoding.md R87, R88). -/
def asmBare (m : List Char) : Option Instr :=
  if m = ['N', 'O', 'P'] then some .nop
  else if m = ['R', 'E', 'S', 'E', 'T'] then some .reset
  else if m = ['B', 'U', 'I', 'L', 'D'] then some .build
  else if m = ['C', 'F', 'G', '5', '6', '5'] then some cfg565
  else if m = ['C', 'F', 'G', '6', '6', '6'] then some cfg666
  else if m = ['C', 'F', 'G', '3', '3', '2'] then some cfg332
  else none

/-- A command with one operand, by its name (30_encoding.md R87, R88). -/
def asmUnary (m a : List Char) : Option Instr :=
  if m = ['O', 'B', 'S', 'E', 'R', 'V', 'E'] then (asmField 16 a).map .observe
  else if m = ['L', 'O', 'O', 'K', 'U', 'P'] then (asmField 16 a).map .lookup
  else if m = ['R', 'D', 'M', 'A', 'P'] then (asmField 12 a).map .rdmap
  else if m = ['R', 'D', 'S', 'E', 'L'] then (asmField 7 a).map .rdsel
  else if m = ['R', 'D', 'P', 'A', 'L'] then (asmField 8 a).map .rdpal
  else if m = ['R', 'D', 'C', 'O', 'U', 'N', 'T', '.', 'C'] then (asmField 6 a).map rdcountC
  else if m = ['R', 'D', 'C', 'O', 'U', 'N', 'T', '.', 'F'] then (asmField 12 a).map rdcountF
  else none

/-- A bucket read, `idx, fld`, by its name (30_encoding.md R87). -/
def asmBucketRead (m a f : List Char) : Option Instr :=
  if m = ['R', 'D', 'C', 'O', 'A', 'R', 'S', 'E'] then
    (asmField 6 a).bind fun i => (asmFld f).map fun f => .rdcoarse i f
  else if m = ['R', 'D', 'F', 'I', 'N', 'E'] then
    (asmField 12 a).bind fun i => (asmFld f).map fun f => .rdfine i f
  else none

/-- The command that a line's tokens spell (30_encoding.md R87, R88). -/
def asmCommand : List AsmToken → Option Instr
  | [.word m] => asmBare m
  | [.word m, .word a] => asmUnary m a
  | [.word m, .word a, .sign c, .word f] => if c = ',' then asmBucketRead m a f else none
  | .word m :: rest => if m = ['C', 'O', 'N', 'F', 'I', 'G'] then asmConfig rest else none
  | _ => none

/-- The command that a line of text holds (30_encoding.md R87, R88). -/
def assembleLine (line : List Char) : AsmLine :=
  match asmTokens [] line with
  | none => .error
  | some [] => .blank
  | some ts =>
    match asmCommand ts with
    | some i => .command i
    | none => .error

end Sys2Proof.Machine
end

