-- ==== Sys2Proof/Tests/Slice0.lean ====
section
/-! SUPPORT. Tests whose expected results come from 95_test_vectors.md (named in each comment) or are worked out by hand
from a rule, and a witness for the hypotheses of every statement that has some. -/

namespace Sys2Proof.Tests

open Sys2Proof Sys2Proof.Machine

/-! ## Small states -/

def palW8 : PalW := ⟨8, by decide, by decide⟩
def palW16 : PalW := ⟨16, by decide, by decide⟩
def palW18 : PalW := ⟨18, by decide, by decide⟩
def palW24 : PalW := ⟨24, by decide, by decide⟩
def palW32 : PalW := ⟨32, by decide, by decide⟩

/-- Hardware with `PAL_W = 16` and its window at 64. -/
def params16 : Params := ⟨palW16, 1⟩

/-- An empty image in ACCUM with CFG565 configured. -/
def blank : State where
  params := params16
  pending := none
  phase := .accum
  cfgValid := true
  errSeen := false
  ovr := false
  lastErr := .ok
  result := 0#64
  packcfg := 0x055B1540#32
  total := 0#32
  coarse := Vector.replicate 64 Bucket.empty
  fine := Vector.replicate 4096 Bucket.empty
  map := Vector.replicate 4096 MapEntry.unassigned
  sel := Vector.replicate 128 0#12
  pal := Vector.replicate 192 0#32
  inputs := []
  replies := []
  draws := 0

/-- What a BUILD of the empty image leaves (95_test_vectors.md B-1): `SEL[r] = r`, the first 128 map entries assigned. -/
def blankBuilt : State :=
  { blank with
    phase := .built
    sel := Vector.ofFn fun r => BitVec.ofNat 12 r.val
    map := Vector.ofFn fun k => if k.val < 128 then ⟨true, BitVec.ofNat 8 (64 + k.val)⟩ else MapEntry.unassigned }

/-- Some of what a BUILD of the empty image leaves: a few entries of the map and of SEL (95_test_vectors.md B-1). -/
def lookups : State :=
  { blank with
    phase := .built
    sel := blank.sel.set 127 127#12
    map := ((blank.map.set 1 ⟨true, 65#8⟩).set 31 ⟨true, 95#8⟩).set 127 ⟨true, 191#8⟩
    pal := blank.pal.set 64 0xF800#32 }

/-- Right after a hardware reset, with nothing read from the free values. -/
def uninit : State := { blank with phase := .uninit, cfgValid := false, packcfg := 0#32 }

/-- A state with a command pending and one event to come. -/
def withPending (w : Word) (inputs : List BusEvent) (s : State) : State := { s with pending := some w, inputs := inputs }

/-- A value of the next state, if there is one. -/
def after {α : Type} (o : Host.Outcome State Fault Refusal) (f : State → α) : Option α :=
  match o with
  | .next t => some (f t)
  | .fault _ => none
  | .refused _ => none

/-- The image of program P1 (95_test_vectors.md section 3): pixels 0xF800 twice, 0xF820, 0x07E0 and 0x001F. -/
def fivePixels : State :=
  { ((((((blank.setFine 0xF00#12 ⟨3#32, 93#38, 1#38, 0#38⟩).setFine 0x00F#12 ⟨1#32, 0#38, 0#38, 31#38⟩).setFine
      0x0F0#12 ⟨1#32, 0#38, 63#38, 0#38⟩).setCoarse 48#6 ⟨3#32, 93#38, 1#38, 0#38⟩).setCoarse
      3#6 ⟨1#32, 0#38, 0#38, 31#38⟩).setCoarse 12#6 ⟨1#32, 0#38, 63#38, 0#38⟩) with total := 5#32 }

/-- The image of program P4 as far as the correction shows (95_test_vectors.md section 3): the fine keys 0 to 127 with a
count of 2 each, and 0x888 and 0xBBB with one pixel each, both children of coarse bucket 42. -/
def crowded : State :=
  { blank with
    params := ⟨palW18, 1⟩
    packcfg := 0x06631980#32
    fine := ⟨⟨List.replicate 128 ⟨2#32, 0#38, 0#38, 0#38⟩ ++ (List.replicate 2056 Bucket.empty ++
      (⟨1#32, 16#38, 32#38, 16#38⟩ :: (List.replicate 818 Bucket.empty ++
      (⟨1#32, 23#38, 47#38, 23#38⟩ :: List.replicate 1092 Bucket.empty))))⟩,
      by simp only [List.size_toArray, List.length_append, List.length_cons, List.length_replicate]⟩
    coarse := ⟨⟨List.replicate 8 ⟨32#32, 0#38, 0#38, 0#38⟩ ++ (List.replicate 34 Bucket.empty ++
      (⟨2#32, 39#38, 79#38, 39#38⟩ :: List.replicate 21 Bucket.empty))⟩,
      by simp only [List.size_toArray, List.length_append, List.length_cons, List.length_replicate]⟩
    total := 258#32 }

/-! ## Well-formedness (30_encoding.md R82, 44_control_and_readback.md R163, R169; 95_test_vectors.md 2.4) -/

theorem test_wellFormed_cfg565 : cfg565.wellFormed palW16 = true := by decide
theorem test_wellFormed_cfg666 : cfg666.wellFormed palW18 = true := by decide
theorem test_wellFormed_cfg332 : cfg332.wellFormed palW8 = true := by decide
theorem test_wellFormed_bgr565 : (Instr.config 5#4 0#5 6#4 5#5 5#4 11#5).wellFormed palW16 = true := by decide
theorem test_wellFormed_widest : (Instr.config 15#4 17#5 2#4 15#5 15#4 0#5).wellFormed palW32 = true := by decide
theorem test_illFormed_width_sum : cfg565.wellFormed palW18 = false := by decide
theorem test_illFormed_zero_width : (Instr.config 0#4 11#5 6#4 5#5 10#4 0#5).wellFormed palW16 = false := by decide
theorem test_illFormed_overlap : (Instr.config 5#4 10#5 6#4 5#5 5#4 0#5).wellFormed palW16 = false := by decide
theorem test_illFormed_beyond : (Instr.config 5#4 12#5 6#4 5#5 5#4 0#5).wellFormed palW16 = false := by decide
theorem test_wellFormed_rdpal : (Instr.rdpal 191#8).wellFormed palW16 = true := by decide
theorem test_illFormed_rdpal : (Instr.rdpal 192#8).wellFormed palW16 = false := by decide

/-! ## Decoding words written out from the formats (30_encoding.md R81 to R88) -/

/-- 0000 then 28 zeros. -/
theorem test_decode_nop : decode 0b00000000000000000000000000000000#32 = .ok .nop := by decide
/-- 0001 then 28 zeros. -/
theorem test_decode_reset : decode 0b00010000000000000000000000000000#32 = .ok .reset := by decide
/-- 0010 RW=0101 RO=01011 GW=0110 GO=00101 BW=0101 BO=00000 0. -/
theorem test_decode_config :
    decode 0b00100101010110110001010101000000#32 = .ok (.config 5#4 11#5 6#4 5#5 5#4 0#5) := by decide
/-- The largest and a distinct value in every field: 0010 RW=1111 RO=10001 GW=0010 GO=01111 BW=1111 BO=00000 0. -/
theorem test_decode_config_widest :
    decode 0b00101111100010010011111111000000#32 = .ok (.config 15#4 17#5 2#4 15#5 15#4 0#5) := by decide
/-- 0011, twelve zeros, PIX = 0x1234. -/
theorem test_decode_observe : decode 0b00110000000000000001001000110100#32 = .ok (.observe 0x1234#16) := by decide
/-- 0100 then 28 zeros. -/
theorem test_decode_build : decode 0b01000000000000000000000000000000#32 = .ok .build := by decide
/-- 0101, twelve zeros, PIX = 0xF821. -/
theorem test_decode_lookup : decode 0b01010000000000001111100000100001#32 = .ok (.lookup 0xF821#16) := by decide
/-- 0110, fourteen zeros, FLD=10, six zeros, CIDX=000110 (95_test_vectors.md R-1). -/
theorem test_decode_rdcoarse : decode 0b01100000000000000010000000000110#32 = .ok (.rdcoarse 6#6 .green) := by decide
/-- 0111, fourteen zeros, FLD=01, FIDX=0xF00 (95_test_vectors.md P1 step 21). -/
theorem test_decode_rdfine : decode 0b01110000000000000001111100000000#32 = .ok (.rdfine 0xF00#12 .red) := by decide
/-- 1000, sixteen zeros, FIDX=0xF00 (95_test_vectors.md R-1). -/
theorem test_decode_rdmap : decode 0b10000000000000000000111100000000#32 = .ok (.rdmap 0xF00#12) := by decide
/-- 1001, twenty-one zeros, RANK=1111111 (95_test_vectors.md R-1). -/
theorem test_decode_rdsel : decode 0b10010000000000000000000001111111#32 = .ok (.rdsel 127#7) := by decide
/-- 1010, twenty zeros, PIDX=10111111 (95_test_vectors.md R-1). -/
theorem test_decode_rdpal : decode 0b10100000000000000000000010111111#32 = .ok (.rdpal 191#8) := by decide

/-- Reserved opcodes (95_test_vectors.md E-1). -/
theorem test_illegal_opcode : decode 0xB0000000#32 = .error .reservedOpcode ∧
    decode 0xFFFFFFFF#32 = .error .reservedOpcode := by decide
/-- Reserved bits (95_test_vectors.md E-1, A-6, R-6, section 2.4). -/
theorem test_illegal_bits : decode 0x00000001#32 = .error .reservedBits ∧ decode 0x40000001#32 = .error .reservedBits ∧
    decode 0x30010000#32 = .error .reservedBits ∧ decode 0x60000040#32 = .error .reservedBits ∧
    decode 0x255B1541#32 = .error .reservedBits := by decide
/-- Fewer than four byte lanes are no command word (30_encoding.md R80). -/
theorem test_illegal_truncated : decodeBytes [0x34#8, 0x12#8, 0x00#8] = .error .truncated := by decide
/-- The lanes of 0x30001234, lane 0 first, and what follows them (20_memory.md R62). -/
theorem test_decodeBytes : decodeBytes [0x34#8, 0x12#8, 0x00#8, 0x30#8, 0xAA#8] = .ok (.observe 0x1234#16, [0xAA#8]) := by
  decide
/-- The words of the two smaller layouts (30_encoding.md R88). -/
theorem test_encode_pseudo : encode cfg666 = 0x26631980#32 ∧ encode cfg332 = 0x23298880#32 ∧
    encode (rdcountF 330#12) = 0x7000014A#32 ∧ encode (rdcountC 48#6) = 0x60000030#32 := by decide
/-- A table row's word through the lanes. -/
theorem test_decodeTableWord : decodeTableWord 32 0x7000014A = some (.rdfine 330#12 .count) := by decide
theorem test_decodeTableWord_illegal : decodeTableWord 32 0xB0000000 = none := by decide

/-! ## Assembler lines (30_encoding.md R87, R88) -/

theorem test_assemble_config :
    assembleLine "CONFIG r=5@11,g=6@5,b=5@0".toList = .command (.config 5#4 11#5 6#4 5#5 5#4 0#5) := by decide +kernel
theorem test_assemble_fld : assembleLine "RDCOARSE 0x2a, g ; green".toList = .command (.rdcoarse 42#6 .green) := by
  decide +kernel
theorem test_assemble_pseudo : assembleLine "RDCOUNT.F 330".toList = .command (.rdfine 330#12 .count) := by decide +kernel
theorem test_assemble_too_wide : assembleLine "RDSEL 128".toList = .error := by decide +kernel

/-! ## Keys and colours (95_test_vectors.md 2.1, B-12) -/

theorem test_keys : (coarseKey 0x1234#16, fineKey 0x1234#16, coarseKey 0xA5A5#16, fineKey 0xA5A5#16,
    coarseKey 0x7BEF#16, fineKey 0x7BEF#16) = (6#6, 330#12, 40#6, 0xAB2#12, 21#6, 0x777#12) := by decide
theorem test_parent : (parent 0xF00#12, parent 0xAB2#12, parent 0xBBB#12) = (48#6, 40#6, 42#6) := by decide
theorem test_pack_cfg666 : (layoutOf 0x06631980#32).pack (2, 17, 20) = 0x04468 ∧
    (layoutOf 0x06631980#32).pack (31, 63, 31) = 0x3EFFE := by decide
theorem test_pack_cfg332 : (layoutOf 0x03298880#32).pack (16, 32, 16) = 0x92 ∧
    (layoutOf 0x03298880#32).pack (7, 9, 7) = 0x24 := by decide
theorem test_pack_bgr : (layoutOf 0x05031556#32).pack (2, 17, 20) = 0xA222 := by decide
theorem test_pack_24 : (layoutOf 0x08842200#32).pack (31, 63, 31) = 0xF8FCF8 := by decide
/-- The truncating average of B-4. -/
theorem test_avg : Bucket.avg ⟨3#32, 2#38, 4#38, 2#38⟩ = (0, 1, 0) := by decide

/-! ## One step of each command -/

/-- E-2: NOP clears LASTERR and leaves ERRSEEN. -/
theorem test_nop : after (exec .nop { blank with lastErr := .range, errSeen := true }) (fun t => (t.lastErr, t.errSeen)) =
    some (.ok, true) := by decide +kernel
/-- A-1: RESET in BUILT. -/
theorem test_reset : after (exec .reset { lookups with total := 9#32 })
    (fun t => (t.phase, t.total, t.mapAt 31#12, t.packcfg, t.cfgValid)) =
    some (.accum, 0#32, ⟨false, 0#8⟩, 0x055B1540#32, true) := by decide +kernel
/-- Section 2.4: CFG565 is accepted on a 16-bit palette. -/
theorem test_config : after (execWord 0x255B1540#32 uninit) (fun t => (t.packcfg, t.cfgValid, t.lastErr)) =
    some (0x055B1540#32, true, .ok) := by decide +kernel
/-- Section 2.4: red reaches beyond bit 15. -/
theorem test_config_bad : after (execWord 0x25631540#32 uninit) (fun t => (t.packcfg, t.cfgValid, t.lastErr.code)) =
    some (0#32, false, 3#4) := by decide +kernel
/-- A-2. -/
theorem test_observe : after (execWord 0x30001234#32 blank)
    (fun t => (t.coarseAt 6#6, t.fineAt 330#12, t.total, t.fineAt 331#12)) =
    some (⟨1#32, 2#38, 17#38, 20#38⟩, ⟨1#32, 2#38, 17#38, 20#38⟩, 1#32, Bucket.empty) := by decide +kernel
/-- A-4: the refused OBSERVE. -/
theorem test_observe_overflow : after (exec (.observe 0#16) { blank with total := 0xFFFFFFFF#32 })
    (fun t => (t.lastErr.code, t.errSeen, t.total, t.coarseAt 0#6)) =
    some (5#4, true, 0xFFFFFFFF#32, Bucket.empty) := by decide +kernel
/-- P1 step 8: selection with ties, the palette, the map and the corrected coarse bucket. -/
theorem test_build : after (exec .build fivePixels)
    (fun t => ([0#7, 1#7, 2#7, 3#7, 17#7, 18#7, 127#7].map t.selAt, [64, 65, 66, 67, 48].map t.palAt,
      t.mapAt 0xF00#12, (t.coarseAt 48#6).count, t.phase, t.status)) =
    some ([0xF00#12, 0x00F#12, 0x0F0#12, 0#12, 14#12, 16#12, 125#12], [0xF800#32, 0x001F#32, 0x07E0#32, 0#32, 0#32],
      ⟨true, 64#8⟩, 0#32, .built, 0x00C#32) := by decide +kernel
/-- P4 step 261: a coarse bucket that keeps its unselected children, and its 18-bit colour. -/
theorem test_build_correction : after (exec .build crowded)
    (fun t => (t.coarseAt 42#6, t.coarseAt 7#6, t.palAt 42, t.selAt 127#7, t.mapAt 0x888#12)) =
    some (⟨2#32, 39#38, 79#38, 39#38⟩, Bucket.empty, 0x269E6#32, 127#12, ⟨false, 0#8⟩) := by decide +kernel
/-- P2 steps 13 and 14, on the map of B-1. -/
theorem test_lookup : after (exec (.lookup 0x0002#16) lookups) State.result = some 65#64 ∧
    after (exec (.lookup 0x00FF#16) lookups) State.result = some 95#64 := by decide +kernel
/-- P2 step 15: the coarse fallback. -/
theorem test_lookup_fallback : after (exec (.lookup 0xFFFF#16) lookups) State.result = some 63#64 := by decide +kernel
/-- A-7: a sum's high bits. -/
theorem test_rdcoarse : after (execWord 0x6000203F#32
    (blank.setCoarse 63#6 ⟨0xFFFFFFFF#32, 0#38, 0x3EFFFFFFC1#38, 0#38⟩)) State.result = some 0x3EFFFFFFC1#64 := by
  decide +kernel
/-- P1 step 21. -/
theorem test_rdfine : after (execWord 0x70001F00#32 fivePixels) State.result = some 93#64 := by decide +kernel
/-- B-1: `MAP[127]` reads 0x1BF. -/
theorem test_rdmap : after (exec (.rdmap 127#12) lookups) State.result = some 0x1BF#64 := by decide +kernel
/-- P2 step 9. -/
theorem test_rdsel : after (execWord 0x9000007F#32 lookups) State.result = some 127#64 := by decide +kernel
/-- R-4 in BUILT and in ACCUM. -/
theorem test_rdpal_range : after (execWord 0xA00000C8#32 lookups) (fun t => t.lastErr.code) = some 6#4 ∧
    after (execWord 0xA00000C8#32 blank) (fun t => t.lastErr.code) = some 2#4 := by decide +kernel
theorem test_rdpal : after (exec (.rdpal 64#8) lookups) State.result =
    some 0xF800#64 := by decide +kernel
/-- P3 steps 1, 2 and 4: errors in their order. -/
theorem test_build_uninit : after (exec .build uninit) (fun t => t.lastErr.code) = some 2#4 := by decide +kernel
theorem test_build_noCfg : after (exec .build { blank with cfgValid := false }) (fun t => (t.lastErr.code, t.phase)) =
    some (4#4, .accum) := by decide +kernel

/-! ## The bus (95_test_vectors.md 2.7) -/

/-- E-3: a second CMD write while a command is pending. -/
theorem test_overrun : after (step (withPending 0#32 [.memWrite 0 64 4 0x10000000#32] blank))
    (fun t => (t.pending, t.ovr, t.lastErr)) = some (some 0#32, true, .ok) := by decide +kernel
/-- E-4: reads of CMD and of offset 0x20. -/
theorem test_read_zero : after (step { blank with inputs := [.memRead 3 64 4] }) (fun t => t.replies) =
    some [⟨3, 64, 0#32⟩] ∧
    after (step { blank with inputs := [.memRead 3 96 4] }) (fun t => t.replies) = some [⟨3, 96, 0#32⟩] := by
  decide +kernel
/-- E-4: a write to TOTAL is ignored. -/
theorem test_write_total : after (step { blank with inputs := [.memWrite 0 84 4 7#32] }) (fun t => (t.total, t.ovr)) =
    some (0#32, false) := by decide +kernel
/-- The end state's STATUS of P3. -/
theorem test_status : State.status { lookups with errSeen := true } = 0x01C#32 := by decide +kernel
/-- 20_memory.md R66: a byte access and an access beyond 0x3C are outside the interface. -/
theorem test_undefined_access : step { blank with inputs := [.memRead 0 64 1] } = .fault .undefinedAccess ∧
    step { blank with inputs := [.memWrite 0 128 4 0#32] } = .fault .undefinedAccess := ⟨rfl, rfl⟩
/-- The engine's turn with nothing pending. -/
theorem test_idle : step blank = .fault .noStep := rfl
/-- A table row's word runs in the very next step after reset. -/
theorem test_withFetchWord : after (step (State.reset.withFetchWord 32 0x10000000))
    (fun t => (t.phase, t.total, t.pending)) = some (.accum, 0#32, none) := by decide +kernel

/-! ## The invariant's witnesses: the empty image before and after a BUILD -/

theorem sumFine_zero (p : FineKey → Prop) [DecidablePred p] : (sumFine fun k => if p k then 0 else 0) = 0 := by
  simp only [ite_self]
  rw [sumFine_const]

theorem value_empty (f : BucketField) : Bucket.empty.value f = 0 := by cases f <;> rfl

theorem blank_coarseAt (c : CoarseKey) : blank.coarseAt c = Bucket.empty := by simp [blank, State.coarseAt]

theorem blank_fineAt (k : FineKey) : blank.fineAt k = Bucket.empty := by simp [blank, State.fineAt]

theorem blank_mapAt (k : FineKey) : blank.mapAt k = ⟨false, 0#8⟩ := by
  simp [blank, State.mapAt, MapEntry.unassigned]

theorem empty_bounded : Bucket.empty.Bounded := ⟨by decide, by decide, by decide⟩

theorem blank_bounded : (∀ k, (blank.fineAt k).Bounded) ∧ ∀ c, (blank.coarseAt c).Bounded :=
  ⟨fun k => by rw [blank_fineAt]; exact empty_bounded, fun c => by rw [blank_coarseAt]; exact empty_bounded⟩

theorem blank_palAt (i : Fin 192) : (blank.palAt i.val).toNat < 2 ^ 16 := by
  rw [palAt_of_lt _ _ i.isLt]
  simp [blank]

theorem witness_inv_accum : blank.Inv := by
  refine ⟨fun _ => by decide, by decide, fun h => absurd h (by decide), fun h => absurd rfl h, blank_palAt,
    fun h => absurd h (by decide), fun _ => ⟨fun c f => ?_, ?_, ?_, blank_mapAt⟩, fun h => absurd h (by decide),
    fun _ => blank_bounded⟩
  · simp only [blank_coarseAt, blank_fineAt, value_empty]
    exact (sumFine_zero _).symm
  · simp only [blank_coarseAt]
    exact (sumCoarse_const 0).symm
  · simp only [blank_fineAt]
    exact (sumFine_const 0).symm

theorem blankBuilt_selAt (r : Rank) : blankBuilt.selAt r = BitVec.ofNat 12 r.toNat := by
  simp [blankBuilt, State.selAt]

theorem blankBuilt_mapAt (k : FineKey) :
    blankBuilt.mapAt k = if k.toNat < 128 then ⟨true, BitVec.ofNat 8 (64 + k.toNat)⟩ else ⟨false, 0#8⟩ := by
  simp [blankBuilt, State.mapAt, MapEntry.unassigned]

theorem blankBuilt_selected (k : FineKey) : blankBuilt.selected k = decide (k.toNat < 128) := by
  have h : (∃ r, blankBuilt.selAt r = k) ↔ k.toNat < 128 := by
    constructor
    · rintro ⟨r, rfl⟩
      have := r.isLt
      rw [blankBuilt_selAt, BitVec.toNat_ofNat]
      omega
    · intro h
      refine ⟨BitVec.ofNat 7 k.toNat, ?_⟩
      rw [blankBuilt_selAt]
      refine BitVec.eq_of_toNat_eq ?_
      simp only [BitVec.toNat_ofNat]
      have := k.isLt
      omega
  rw [← selected_iff] at h
  by_cases hk : k.toNat < 128
  · rw [h.2 hk, decide_eq_true hk]
  · rw [decide_eq_false hk, ← Bool.not_eq_true, h]
    exact hk

theorem blankBuilt_precedes (a b : FineKey) (h : a.toNat < b.toNat) : blankBuilt.precedes a b := by
  have e : ∀ k, blankBuilt.fineAt k = Bucket.empty := blank_fineAt
  exact .inr ⟨by rw [e, e], h⟩

theorem toNat_rank_key (r : Rank) : (BitVec.ofNat 12 r.toNat).toNat = r.toNat := by
  have := r.isLt
  rw [BitVec.toNat_ofNat]
  omega

theorem witness_inv_built : blankBuilt.Inv := by
  refine ⟨fun _ => by decide, by decide, fun h => absurd h (by decide), fun h => absurd rfl h, blank_palAt,
    fun h => absurd h (by decide), fun h => absurd h (by decide), fun _ => ⟨fun r r' h => ?_, fun r r' h => ?_,
    fun r k h => ?_, fun r => ?_, fun k h => ?_, fun c f => ?_, ?_⟩, fun _ => blank_bounded⟩
  · rw [blankBuilt_selAt, blankBuilt_selAt] at h
    have := congrArg BitVec.toNat h
    rw [toNat_rank_key, toNat_rank_key] at this
    exact BitVec.eq_of_toNat_eq this
  · refine blankBuilt_precedes _ _ ?_
    rw [blankBuilt_selAt, blankBuilt_selAt, toNat_rank_key, toNat_rank_key]
    exact h
  · refine blankBuilt_precedes _ _ ?_
    rw [blankBuilt_selected, decide_eq_false_iff_not] at h
    have := r.isLt
    rw [blankBuilt_selAt, toNat_rank_key]
    omega
  · have := r.isLt
    rw [blankBuilt_mapAt, blankBuilt_selAt, toNat_rank_key, if_pos (by omega)]
    refine congrArg (MapEntry.mk true) (BitVec.eq_of_toNat_eq ?_)
    simp only [BitVec.toNat_ofNat, BitVec.toNat_add, BitVec.toNat_setWidth]
    omega
  · rw [blankBuilt_selected, decide_eq_false_iff_not] at h
    rw [blankBuilt_mapAt, if_neg h]
  · have ec : blankBuilt.coarseAt c = Bucket.empty := blank_coarseAt c
    have ef : ∀ k, blankBuilt.fineAt k = Bucket.empty := blank_fineAt
    simp only [ec, ef, value_empty]
    exact (sumFine_zero _).symm
  · have ec : ∀ c, blankBuilt.coarseAt c = Bucket.empty := blank_coarseAt
    have ef : ∀ k, blankBuilt.fineAt k = Bucket.empty := blank_fineAt
    simp only [ec, ef, show Bucket.empty.count.toNat = 0 from rfl, sumCoarse_const, sumRanks_const]
    rfl

/-! ## Witnesses: a concrete state and operands that meet the hypotheses of each statement that has some, for each of its
clauses -/

/-- `EncodeOfDecodedWordIsTheWord`, and each clause of `OperandsAreFieldsOfTheWord`. -/
theorem witness_decoded :
    decode 0x2F893FC0#32 = .ok (.config 15#4 17#5 2#4 15#5 15#4 0#5) ∧ decode 0x3000FFFF#32 = .ok (.observe 0xFFFF#16) ∧
    decode 0x5000FFFF#32 = .ok (.lookup 0xFFFF#16) ∧ decode 0x6000303F#32 = .ok (.rdcoarse 63#6 .blue) ∧
    decode 0x70003FFF#32 = .ok (.rdfine 4095#12 .blue) ∧ decode 0x80000FFF#32 = .ok (.rdmap 4095#12) ∧
    decode 0x9000007F#32 = .ok (.rdsel 127#7) ∧ decode 0xA00000FF#32 = .ok (.rdpal 255#8) := by decide

/-- `ReservedBitsRaiseIllegal`: a lowest or highest reserved bit of each format. -/
theorem witness_reserved_bits : BitVec.extractLsb' 0 28 0x00000001#32 ≠ 0#28 ∧ BitVec.extractLsb' 0 28 0x18000000#32 ≠ 0#28 ∧
    BitVec.extractLsb' 0 1 0x255B1541#32 ≠ 0#1 ∧ BitVec.extractLsb' 16 12 0x30010000#32 ≠ 0#12 ∧
    BitVec.extractLsb' 16 12 0x58000000#32 ≠ 0#12 ∧ BitVec.extractLsb' 14 14 0x60004000#32 ≠ 0#14 ∧
    BitVec.extractLsb' 6 6 0x60000800#32 ≠ 0#6 ∧ BitVec.extractLsb' 14 14 0x70004000#32 ≠ 0#14 ∧
    BitVec.extractLsb' 12 16 0x80001000#32 ≠ 0#16 ∧ BitVec.extractLsb' 7 21 0x90000080#32 ≠ 0#21 ∧
    BitVec.extractLsb' 8 20 0xA0000100#32 ≠ 0#20 := by decide

/-- `ReservedOpcodeRaisesIllegal`: the first and the last such word. -/
theorem witness_reserved_opcode : 0xB ≤ (0xB0000000#32).toNat / 2 ^ 28 ∧ 0xB ≤ (0xFFFFFFFF#32).toNat / 2 ^ 28 := by decide

/-- `EngineStepExecutesThePendingCommand`, with an engine turn scheduled and with nothing scheduled. -/
theorem witness_engine_step : (withPending 0x30001234#32 [.engine] blank).engineNext ∧
    (withPending 0x30001234#32 [] blank).engineNext ∧
    (withPending 0x30001234#32 [] blank).pending = some 0x30001234#32 ∧
    decode 0x30001234#32 = .ok (.observe 0x1234#16) := ⟨.inr rfl, .inl rfl, rfl, by decide⟩

/-- `EngineStepRejectsAnIllegalWord`. -/
theorem witness_engine_reject : (withPending 0x30010000#32 [] blank).engineNext ∧
    (withPending 0x30010000#32 [] blank).pending = some 0x30010000#32 ∧
    decode 0x30010000#32 = .error .reservedBits := ⟨.inl rfl, rfl, by decide⟩

/-- `ObserveAddsThePixelToItsTwoBuckets`, at the last count below the limit. -/
theorem witness_observe : { blank with total := 0xFFFFFFFE#32 }.phase = .accum ∧
    { blank with total := 0xFFFFFFFE#32 }.total ≠ 0xFFFFFFFF#32 := by decide

/-- `ObserveIsRefusedAtThePixelLimit`. -/
theorem witness_observe_limit : { blank with total := 0xFFFFFFFF#32 }.phase = .accum ∧
    { blank with total := 0xFFFFFFFF#32 }.total = 0xFFFFFFFF#32 := by decide

/-- `ObserveNeverWraps`. -/
theorem witness_observe_exact : blank.Inv ∧ blank.phase = .accum ∧ blank.total ≠ 0xFFFFFFFF#32 :=
  ⟨witness_inv_accum, by decide, by decide⟩

/-- `ObserveOrderDoesNotMatter`, with the limit reached by the last pixel. -/
theorem witness_observe_order : [1#16, 2#16].Perm [2#16, 1#16] ∧ { blank with total := 0xFFFFFFFD#32 }.phase = .accum ∧
    { blank with total := 0xFFFFFFFD#32 }.total.toNat + [1#16, 2#16].length ≤ 0xFFFFFFFF := by decide

/-- The statements about BUILD, and `BuildNeedsAnAcceptedConfiguration`'s second clause. -/
theorem witness_build : blank.Inv ∧ blank.phase = .accum ∧ blank.cfgValid = true :=
  ⟨witness_inv_accum, by decide, by decide⟩

/-- `BuildNeedsAnAcceptedConfiguration`'s first clause. -/
theorem witness_build_noCfg : { blank with cfgValid := false }.phase = .accum ∧
    { blank with cfgValid := false }.cfgValid = false := by decide

/-- `BuildIsAFunctionOfTheGridsAndTheLayout`, with two states that are not the same. -/
theorem witness_build_function : ∃ s : State, s.Inv ∧ s.phase = .accum ∧ s.cfgValid = true ∧ s.result ≠ blank.result ∧
    s.sel ≠ blank.sel ∧ s.fine = blank.fine ∧ s.coarse = blank.coarse ∧ s.packcfg = blank.packcfg ∧
    s.params.palW = blank.params.palW := by
  refine ⟨{ blank with result := 1#64, sel := blank.sel.set 0 1#12 }, ?_, rfl, rfl, by decide, by decide +kernel, rfl, rfl,
    rfl, rfl⟩
  have h := witness_inv_accum
  exact ⟨h.config_legal, h.config_reserved, h.config_absent, h.error_seen, h.palette_width,
    fun hp => absurd hp (by decide), fun hp => ⟨(h.accum hp).1, (h.accum hp).2, (h.accum hp).3, (h.accum hp).4⟩,
    fun hp => absurd hp (by decide), h.bounded⟩

/-- `EmptySelectedBucketsAreBlackAndLookedUp`: BUILD of the five pixels selects an empty bucket at rank 3. -/
theorem witness_empty_selected : fivePixels.phase = .accum ∧ fivePixels.cfgValid = true ∧
    after (exec .build fivePixels) (fun t => (fivePixels.fineAt (t.selAt 3#7)).count) = some 0#32 ∧
    fineKey 0x0000#16 = 0#12 := by decide +kernel

/-- `LookupAnswersWithTheMapOrTheCoarseKey`, both clauses; and `LookupsDoNotDisturbOneAnother`. -/
theorem witness_lookup : lookups.phase = .built ∧ (lookups.mapAt (fineKey 0x0002#16)).v = true ∧
    (lookups.mapAt (fineKey 0xFFFF#16)).v = false := by decide +kernel

/-- `LookupIsTotalAndInRange`, for a selected key and for one left out. -/
theorem witness_lookup_total : blankBuilt.Inv ∧ blankBuilt.phase = .built ∧
    (∃ r, blankBuilt.selAt r = fineKey 0x0002#16) ∧ ∀ r, blankBuilt.selAt r ≠ fineKey 0xFFFF#16 := by
  refine ⟨witness_inv_built, by decide, ?_, ?_⟩
  · rw [← selected_iff, blankBuilt_selected]
    decide
  · rw [← not_selected_iff, blankBuilt_selected]
    decide

/-- `ConfigAcceptsExactlyTheLegalLayouts` for CFG565, which is legal on a 16-bit palette. -/
theorem witness_config_legal : True ↔ (1 ≤ (5#4).toNat ∧ 1 ≤ (6#4).toNat ∧ 1 ≤ (5#4).toNat) ∧
    (5#4).toNat + (6#4).toNat + (5#4).toNat = blank.params.palW.bits ∧
    ((11#5).toNat + (5#4).toNat ≤ blank.params.palW.bits ∧ (5#5).toNat + (6#4).toNat ≤ blank.params.palW.bits ∧
      (0#5).toNat + (5#4).toNat ≤ blank.params.palW.bits) ∧
    (∀ b, ¬ ((11#5).toNat ≤ b ∧ b < (11#5).toNat + (5#4).toNat ∧ (5#5).toNat ≤ b ∧ b < (5#5).toNat + (6#4).toNat)) ∧
    (∀ b, ¬ ((11#5).toNat ≤ b ∧ b < (11#5).toNat + (5#4).toNat ∧ (0#5).toNat ≤ b ∧ b < (0#5).toNat + (5#4).toNat)) ∧
    (∀ b, ¬ ((5#5).toNat ≤ b ∧ b < (5#5).toNat + (6#4).toNat ∧ (0#5).toNat ≤ b ∧ b < (0#5).toNat + (5#4).toNat)) := by
  simp only [show blank.params.palW.bits = 16 from rfl, BitVec.toNat_ofNat]
  refine ⟨fun _ => ⟨by decide, by decide, by decide, ?_, ?_, ?_⟩, fun _ => trivial⟩ <;> intro b <;> omega

/-- `ConfigAcceptsExactlyTheLegalLayouts` for a layout whose red and green overlap (95_test_vectors.md 2.4). -/
theorem witness_config_illegal : ¬ ∀ b, ¬ ((10#5).toNat ≤ b ∧ b < (10#5).toNat + (5#4).toNat ∧
    (5#5).toNat ≤ b ∧ b < (5#5).toNat + (6#4).toNat) := fun h => h 10 (by decide)

/-- `LegalLayoutTilesTheEntry` and `PackPlacesEachChannelInItsField`: the 32-bit layout, and the largest means. -/
theorem witness_layout : Layout.legal ⟨15, 17, 2, 15, 15, 0⟩ 32 = true ∧ Layout.legal ⟨3, 5, 3, 2, 2, 0⟩ 8 = true ∧
    31 < 32 ∧ 63 < 64 := by decide

/-- `AveragesAreInTheChannelRanges`, its three clauses. -/
theorem witness_averages : Bucket.empty.count = 0#32 ∧ (Bucket.mk 3#32 93#38 1#38 0#38).count ≠ 0#32 ∧
    Bucket.Bounded ⟨3#32, 93#38, 1#38, 0#38⟩ := ⟨by decide, by decide, ⟨by decide, by decide, by decide⟩⟩

/-- The read-backs, in ACCUM and in BUILT; `PaletteReadAnswersOrRaisesRange` at the boundary of its clauses. -/
theorem witness_reads : blank.phase ≠ .uninit ∧ blankBuilt.phase = .built ∧ (191#8).toNat < 192 ∧ 192 ≤ (192#8).toNat ∧
    192 ≤ (255#8).toNat := by decide

/-- `PhaseTableIsEnforced`: commands forbidden in each phase they are forbidden in, and allowed ones. -/
theorem witness_phase_table :
    (True ↔ uninit.phase = .uninit ∨ uninit.phase = .built) ∧ (True ↔ blankBuilt.phase = .uninit ∨ blankBuilt.phase = .built) ∧
    (False ↔ blank.phase = .uninit ∨ blank.phase = .built) ∧ (True ↔ uninit.phase = .uninit ∨ uninit.phase = .accum) ∧
    (True ↔ blank.phase = .uninit ∨ blank.phase = .accum) ∧ (False ↔ blankBuilt.phase = .uninit ∨ blankBuilt.phase = .accum) ∧
    (True ↔ uninit.phase = .uninit) ∧ (False ↔ blank.phase = .uninit) := by decide

/-- `ErrorsChangeNothingElse`. -/
theorem witness_error : ∃ t, execWord 0xB0000000#32 blank = .next t ∧ t.lastErr ≠ .ok := ⟨_, rfl, by decide⟩

/-- `ErrSeenIsSticky`: an error in the engine's turn that sets ERRSEEN, and a reset that clears it. -/
theorem witness_errSeen : (∃ t, step (withPending 0xB0000000#32 [] blank) = .next t ∧
      (withPending 0xB0000000#32 [] blank).engineNext ∧ t.lastErr ≠ .ok ∧ blank.errSeen = false ∧ t.errSeen = true) ∧
    ∃ t, step { blank with errSeen := true, inputs := [.hwReset] } = .next t ∧ t.errSeen = false :=
  ⟨⟨_, rfl, .inl rfl, by decide, rfl, rfl⟩, ⟨_, rfl, rfl⟩⟩

/-- `OverrunIsSticky`: an overrun, and a reset that clears OVR. -/
theorem witness_overrun : (∃ t, step (withPending 0#32 [.memWrite 0 64 4 1#32] blank) = .next t ∧
      (withPending 0#32 [.memWrite 0 64 4 1#32] blank).cmdWriteNext ∧
      (withPending 0#32 [.memWrite 0 64 4 1#32] blank).busy = true ∧ blank.ovr = false ∧ t.ovr = true) ∧
    ∃ t, step { blank with ovr := true, inputs := [.hwReset] } = .next t ∧ t.ovr = false :=
  ⟨⟨_, rfl, ⟨0, 1#32, rfl⟩, rfl, rfl, rfl⟩, ⟨_, rfl, rfl⟩⟩

/-- `ConfigValidityPersists`: an accepted CONFIG, a reset, and a BUILD that leaves ACCUM. -/
theorem witness_cfgValid : (∃ t, step (withPending 0x255B1540#32 [] uninit) = .next t ∧
      (withPending 0x255B1540#32 [] uninit).runs cfg565 ∧ uninit.cfgValid = false ∧ t.lastErr = .ok ∧ t.cfgValid = true) ∧
    (∃ t, step { blank with inputs := [.hwReset] } = .next t ∧ blank.cfgValid = true ∧ t.cfgValid = false) ∧
    ∃ t, step (withPending 0x40000000#32 [] blank) = .next t ∧ (withPending 0x40000000#32 [] blank).runs .build ∧
      t.phase ≠ blank.phase :=
  ⟨⟨_, rfl, ⟨.inl rfl, _, rfl, by decide⟩, rfl, rfl, rfl⟩, ⟨_, rfl, rfl, rfl⟩,
    ⟨_, rfl, ⟨.inl rfl, _, rfl, by decide⟩, fun h => Phase.noConfusion h⟩⟩

/-- `LastErrorIsWrittenByCommandsAlone`: a discarded CMD write. -/
theorem witness_lastErr : ∃ t, step (withPending 0#32 [.memWrite 0 64 4 1#32] blank) = .next t ∧
    ¬ (withPending 0#32 [.memWrite 0 64 4 1#32] blank).engineNext ∧
    ¬ (withPending 0#32 [.memWrite 0 64 4 1#32] blank).resetNext := by
  refine ⟨_, rfl, ?_, ?_⟩
  · rintro (h | h) <;> simp [withPending] at h
  · intro h
    simp [withPending, State.resetNext] at h

/-- `PhaseTransitions`, and `StepKeepsTheInvariant`: each of the three commands and events that change the phase, from a
state that meets the invariant. -/
theorem witness_phase : (∃ t, step { blankBuilt with inputs := [.hwReset] } = .next t ∧
      { blankBuilt with inputs := [.hwReset] }.resetNext ∧ t.phase ≠ blankBuilt.phase) ∧
    (∃ t, step (withPending 0x10000000#32 [] blankBuilt) = .next t ∧
      (withPending 0x10000000#32 [] blankBuilt).runs .reset ∧ t.phase ≠ blankBuilt.phase) ∧
    ∃ t, step (withPending 0x40000000#32 [] blank) = .next t ∧ (withPending 0x40000000#32 [] blank).runs .build ∧
      t.phase ≠ blank.phase :=
  ⟨⟨_, rfl, rfl, fun h => Phase.noConfusion h⟩, ⟨_, rfl, ⟨.inl rfl, _, rfl, by decide⟩, fun h => Phase.noConfusion h⟩,
    ⟨_, rfl, ⟨.inl rfl, _, rfl, by decide⟩, fun h => Phase.noConfusion h⟩⟩

/-- `ResultIsWrittenOnlyByAnswers`. -/
theorem witness_result : ∃ t, step (withPending 0x5000FFFF#32 [] lookups) = .next t ∧ t.result ≠ lookups.result :=
  ⟨_, rfl, by decide +kernel⟩

/-- `RegisterFilesAreWrittenOnlyByTheirCommands`, clause by clause. -/
theorem witness_register_files :
    after (exec (.observe 0#16) blank) (fun t => decide (t.coarse ≠ blank.coarse ∧ t.total ≠ blank.total)) = some true ∧
    after (exec (.observe 0#16) blank) (fun t => decide (t.fineAt 0#12 ≠ blank.fineAt 0#12)) = some true ∧
    after (exec .reset lookups) (fun t => decide (t.mapAt 1#12 ≠ lookups.mapAt 1#12)) = some true ∧
    after (exec .build fivePixels) (fun t => decide (t.selAt 0#7 ≠ fivePixels.selAt 0#7)) = some true ∧
    after (exec cfg565 uninit) (fun t => decide (t.packcfg ≠ uninit.packcfg)) = some true := by decide +kernel

/-- `HardwareResetRestoresTheRegisters`, with a command pending. -/
theorem witness_hwReset : (withPending 0#32 [.hwReset] blankBuilt).resetNext := rfl

/-- `CmdWriteIsAcceptedOrDiscarded`, both clauses. -/
theorem witness_cmdWrite : { blank with inputs := [.memWrite 7 64 4 1#32] }.inputs.head? =
      some (.memWrite 7 (base blank.params) 4 1#32) ∧ blank.pending = none ∧
    (withPending 0#32 [.memWrite 7 64 4 1#32] blank).inputs.head? = some (.memWrite 7 (base blank.params) 4 1#32) ∧
    (withPending 0#32 [.memWrite 7 64 4 1#32] blank).pending ≠ none := by decide

/-- `OtherWritesAreIgnored`, at the first and the last of its offsets. -/
theorem witness_other_writes : 0x04 % 4 = 0 ∧ 0x3C % 4 = 0 ∧
    { blank with inputs := [.memWrite 0 68 4 1#32] }.inputs.head? = some (.memWrite 0 (base blank.params + 0x04) 4 1#32) ∧
    { blank with inputs := [.memWrite 0 124 4 1#32] }.inputs.head? =
      some (.memWrite 0 (base blank.params + 0x3C) 4 1#32) := by decide

/-- `IdleReadReturnsTheRegister` and `BusyReadShowsBusy`: each clause's offset, the reserved ones at their ends. -/
theorem witness_read_offsets : ∀ off ∈ [0x00, 0x04, 0x08, 0x0C, 0x10, 0x14, 0x18, 0x1C, 0x3C], off % 4 = 0 ∧ off ≤ 0x3C ∧
    { blank with inputs := [.memRead 0 (64 + off) 4] }.inputs.head? = some (.memRead 0 (base blank.params + off) 4) ∧
    (withPending 0#32 [.memRead 0 (64 + off) 4] blank).inputs.head? = some (.memRead 0 (base blank.params + off) 4) ∧
    blank.pending = none ∧ (withPending 0#32 [.memRead 0 (64 + off) 4] blank).pending ≠ none := by decide

/-- `IdleReadReturnsTheRegister`: what P3's end state shows at STATUS and PARAM (95_test_vectors.md, 10_state.md R33). -/
theorem test_idle_reads : after (step { lookups with errSeen := true, inputs := [.memRead 0 68 4] }) State.replies =
      some [⟨0, 68, 0x01C#32⟩] ∧
    after (step { lookups with inputs := [.memRead 0 88 4] }) State.replies = some [⟨0, 88, 16#32⟩] := by decide +kernel

/-- `StepStopsOnlyWhenIdleOrOutsideTheInterface`, `ParametersNeverChange` and `StepKeepsTheInvariant` have a step to speak
of, from a state that meets the invariant. -/
theorem witness_step : (withPending 0x30001234#32 [] blank).Inv ∧
    ∃ t, step (withPending 0x30001234#32 [] blank) = .next t ∧ t.total = 1#32 := by
  have h := witness_inv_accum
  refine ⟨⟨h.config_legal, h.config_reserved, h.config_absent, h.error_seen, h.palette_width,
    fun hp => absurd hp (by decide), fun hp => ⟨(h.accum hp).1, (h.accum hp).2, (h.accum hp).3, (h.accum hp).4⟩,
    fun hp => absurd hp (by decide), h.bounded⟩, _, rfl, by decide +kernel⟩

/-- `PendingCommandCompletesUndisturbedByReads`: two reads before the engine's turn. -/
theorem witness_pending : (withPending 0x30001234#32 [.memRead 0 68 4, .memRead 1 84 4] blank).pending = some 0x30001234#32 ∧
    ∀ e ∈ (withPending 0x30001234#32 [.memRead 0 68 4, .memRead 1 84 4] blank).inputs,
      e.isRead (withPending 0x30001234#32 [.memRead 0 68 4, .memRead 1 84 4] blank).params = true := by decide

end Sys2Proof.Tests
end

section
/-! PROOFS. The scope's statements: pixel fields, keys and the parent relation (00_scope.md R14 to R16), the parameters that
nothing changes (R10, R11), and the exactness of OBSERVE's additions (R9, 41_accumulator.md R109). -/

namespace Sys2Proof.Machine

/-! ### Pixel fields and keys as numbers -/

theorem toNat_append_eq {m n : Nat} (x : BitVec m) (y : BitVec n) : (x ++ y).toNat = x.toNat * 2 ^ n + y.toNat := by
  rw [BitVec.toNat_append, ← Nat.shiftLeft_add_eq_or_of_lt y.isLt, Nat.shiftLeft_eq]

theorem toNat_extractLsb'_eq {n : Nat} (x : BitVec n) (start len : Nat) :
    (x.extractLsb' start len).toNat = x.toNat / 2 ^ start % 2 ^ len := by
  rw [BitVec.extractLsb'_toNat, Nat.shiftRight_eq_div_pow]

theorem red_toNat (p : Pixel) : (red p).toNat = p.toNat / 2048 := by
  have := p.isLt
  simp only [red, toNat_extractLsb'_eq]
  omega

theorem green_toNat (p : Pixel) : (green p).toNat = p.toNat / 32 % 64 := toNat_extractLsb'_eq p 5 6

theorem blue_toNat (p : Pixel) : (blue p).toNat = p.toNat % 32 := by
  simp only [blue, toNat_extractLsb'_eq, Nat.pow_zero, Nat.div_one, Nat.reducePow]

/-- The coarse key places the top two bits of each channel side by side. -/
theorem coarseKey_toNat (p : Pixel) :
    (coarseKey p).toNat = (red p).toNat / 8 * 16 + (green p).toNat / 16 * 4 + (blue p).toNat / 8 := by
  have hr := (red p).isLt
  have hg := (green p).isLt
  have hb := (blue p).isLt
  simp only [coarseKey, toNat_append_eq, toNat_extractLsb'_eq]
  omega

/-- The fine key places the top four bits of each channel side by side. -/
theorem fineKey_toNat (p : Pixel) :
    (fineKey p).toNat = (red p).toNat / 2 * 256 + (green p).toNat / 4 * 16 + (blue p).toNat / 2 := by
  have hr := (red p).isLt
  have hg := (green p).isLt
  have hb := (blue p).isLt
  simp only [fineKey, toNat_append_eq, toNat_extractLsb'_eq]
  omega

theorem parent_toNat (k : FineKey) :
    (parent k).toNat = k.toNat / 1024 * 16 + k.toNat / 64 % 4 * 4 + k.toNat / 4 % 4 := by
  have := k.isLt
  simp only [parent, toNat_append_eq, toNat_extractLsb'_eq]
  omega

/-! ### Keys as bits of the pixel -/

/-- A part of a part is the part at the sum of the two offsets. -/
theorem extractLsb'_extractLsb'_eq {n : Nat} (x : BitVec n) {start start' len len' : Nat} (h : start' + len' ≤ len) :
    (x.extractLsb' start len).extractLsb' start' len' = x.extractLsb' (start + start') len' := by
  ext i hi
  have : start' + i < len := by omega
  simp [this, Nat.add_assoc]

theorem coarseKey_eq_append (p : Pixel) :
    coarseKey p = p.extractLsb' 14 2 ++ p.extractLsb' 9 2 ++ p.extractLsb' 3 2 := by
  simp only [coarseKey, red, green, blue, extractLsb'_extractLsb'_eq, Nat.reduceAdd, Nat.reduceLeDiff]

theorem fineKey_eq_append (p : Pixel) :
    fineKey p = p.extractLsb' 12 4 ++ p.extractLsb' 7 4 ++ p.extractLsb' 1 4 := by
  simp only [fineKey, red, green, blue, extractLsb'_extractLsb'_eq, Nat.reduceAdd, Nat.reduceLeDiff]

/-- Settles O17, field by field. -/
theorem keysAreTheTopBitsOfEachChannel : Obligations.KeysAreTheTopBitsOfEachChannel := fun p k =>
  ⟨red_toNat p, green_toNat p, blue_toNat p, coarseKey_toNat p, fineKey_toNat p, parent_toNat k, coarseKey_eq_append p,
    fineKey_eq_append p⟩

/-! ### The parent of a fine key, and the bits a fine key ignores -/

/-- Dropping two more bits of each channel's four leaves its top two (00_scope.md R16). -/
theorem parent_fineKey (p : Pixel) : parent (fineKey p) = coarseKey p := by
  apply BitVec.eq_of_toNat_eq
  have hg := (green p).isLt
  have hb := (blue p).isLt
  rw [parent_toNat, fineKey_toNat, coarseKey_toNat]
  omega

/-- Two fine keys are equal exactly if the three parts that a fine key reads are. -/
theorem fineKey_eq_iff_parts (p q : Pixel) : fineKey p = fineKey q ↔
    p.extractLsb' 12 4 = q.extractLsb' 12 4 ∧ p.extractLsb' 7 4 = q.extractLsb' 7 4 ∧
    p.extractLsb' 1 4 = q.extractLsb' 1 4 := by
  simp only [fineKey_eq_append, ← BitVec.toNat_inj, toNat_append_eq, toNat_extractLsb'_eq]
  omega

/-- Two pixels are equal exactly if they agree on the parts that a fine key reads and on `p[11]`, `p[6:5]` and `p[0]`. -/
theorem pixel_eq_iff_parts (p q : Pixel) : p = q ↔
    (p.extractLsb' 12 4 = q.extractLsb' 12 4 ∧ p.extractLsb' 7 4 = q.extractLsb' 7 4 ∧
      p.extractLsb' 1 4 = q.extractLsb' 1 4) ∧
    p.extractLsb' 11 1 = q.extractLsb' 11 1 ∧ p.extractLsb' 5 2 = q.extractLsb' 5 2 ∧
    p.extractLsb' 0 1 = q.extractLsb' 0 1 := by
  have hp := p.isLt
  have hq := q.isLt
  simp only [← BitVec.toNat_inj, toNat_extractLsb'_eq]
  omega

/-- The mask keeps the parts that a fine key reads and clears the others (00_scope.md R16). -/
theorem fineKey_eq_iff (p q : Pixel) : fineKey p = fineKey q ↔ p &&& 0xF79E#16 = q &&& 0xF79E#16 := by
  have hkeep : ∀ x : BitVec 4, x &&& 15#4 = x := fun _ => BitVec.and_allOnes
  rw [fineKey_eq_iff_parts, pixel_eq_iff_parts (p &&& _)]
  simp [BitVec.extractLsb'_and, hkeep]

/-- Settles O18, clause by clause. -/
theorem parentOfFineKeyIsCoarseKey : Obligations.ParentOfFineKeyIsCoarseKey := ⟨parent_fineKey, fineKey_eq_iff⟩

/-! ### The parameters -/

@[simp] theorem issue_params (w : Word) (s : State) : (issue w s).params = s.params := by
  unfold issue
  split <;> rfl

/-- No command changes the parameters. -/
theorem exec_params (i : Instr) {s t : State} (h : exec i s = .next t) : t.params = s.params := by
  rcases exec_cases i s with ⟨_, -, he⟩ | ⟨-, he⟩ | ⟨-, he⟩ | ⟨_, _, _, _, _, _, -, -, he⟩ | ⟨_, -, -, -, he⟩ |
    ⟨-, -, -, he⟩ | ⟨_, -, he⟩ <;> cases he.symm.trans h <;> simp

/-- Completing the pending word, legal or not, changes no parameter. -/
theorem engineTurn_params {s t : State} (h : engineTurn s = .next t) : t.params = s.params := by
  obtain ⟨w, -, ⟨i, u, -, hu, rfl⟩ | ⟨x, -, rfl⟩⟩ := engineTurn_cases s t h
  · exact (complete_params u).trans (exec_params i hu)
  · rfl

/-- Settles O57, by the kinds of step. -/
theorem parametersNeverChange : Obligations.ParametersNeverChange := by
  intro s t h
  rcases step_cases s t h with ⟨-, he⟩ | ⟨_, _, _, _, -, -, rfl⟩ | ⟨_, _, _, _, _, -, -, ⟨-, rfl⟩ | ⟨-, rfl⟩⟩ | ⟨-, rfl⟩
  · exact (engineTurn_params he).trans (popInput_params s)
  · rfl
  · exact issue_params _ _
  · rfl
  · rfl

/-! ### OBSERVE's additions are exact -/

/-- What a pixel adds to a field of its buckets (41_accumulator.md R105). -/
def addend (p : Pixel) : BucketField → Nat
  | .count => 1
  | .red => (red p).toNat
  | .green => (green p).toNat
  | .blue => (blue p).toNat

/-- The sums' widths leave room for one more pixel while the count's does (00_scope.md R9, 41_accumulator.md R109). -/
theorem value_add {b : Bucket} (hb : b.Bounded) (hc : b.count.toNat < 0xFFFFFFFF) (p : Pixel) (f : BucketField) :
    (b.add p).value f = b.value f + addend p f := by
  obtain ⟨hr, hg, hbl⟩ := hb
  have hrp := (red p).isLt
  have hgp := (green p).isLt
  have hbp := (blue p).isLt
  cases f <;>
    simp only [Bucket.value, Bucket.add, addend, BitVec.toNat_add, BitVec.toNat_setWidth, BitVec.toNat_ofNat] <;>
    omega

theorem count_coarseAt_le_total {s : State} (h : s.AccumInv) (c : CoarseKey) :
    (s.coarseAt c).count.toNat ≤ s.total.toNat := by
  rw [h.total_is_coarse]
  exact le_sumCoarse (fun c => (s.coarseAt c).count.toNat) c

theorem count_fineAt_le_total {s : State} (h : s.AccumInv) (k : FineKey) :
    (s.fineAt k).count.toNat ≤ s.total.toNat := by
  rw [h.total_is_fine]
  exact le_sumFine (fun k => (s.fineAt k).count.toNat) k

/-- Below the pixel limit an OBSERVE in ACCUM adds its pixel (41_accumulator.md R105). -/
theorem exec_observe_eq {s : State} (pix : Pixel) (hp : s.phase = .accum) (ht : s.total ≠ 0xFFFFFFFF#32) :
    exec (.observe pix) s = .next (observePixel pix s) := by
  have hperm : permitted .observe s.phase = true := by rw [hp]; rfl
  simp only [exec, execObserve, guardPhase_of_permitted hperm, if_neg ht]

theorem toNat_lt_of_ne_limit {n : BitVec 32} (h : n ≠ 0xFFFFFFFF#32) : n.toNat < 0xFFFFFFFF := by
  bv_omega

/-- Settles O16: under the invariant no bucket's count exceeds TOTAL, and no sum exceeds its bound. -/
theorem observeNeverWraps : Obligations.ObserveNeverWraps := by
  intro s pix hinv hp ht
  have hlt := toNat_lt_of_ne_limit ht
  obtain ⟨hfine, hcoarse⟩ := hinv.bounded (by rw [hp]; decide)
  have hacc := hinv.accum hp
  refine ⟨_, exec_observe_eq pix hp ht, ?_, ?_⟩
  · rw [observePixel_total]
    bv_omega
  · intro b b' hbb
    have hvalue : ∀ f, b'.value f = b.value f + addend pix f := by
      obtain ⟨rfl, rfl⟩ | ⟨rfl, rfl⟩ := hbb
      · rw [observePixel_coarseAt, if_pos rfl]
        exact value_add (hcoarse _) ((count_coarseAt_le_total hacc _).trans_lt hlt) pix
      · rw [observePixel_fineAt, if_pos rfl]
        exact value_add (hfine _) ((count_fineAt_le_total hacc _).trans_lt hlt) pix
    simp only [hvalue, addend, red_toNat, green_toNat, blue_toNat, and_self]

end Sys2Proof.Machine
end

section
/-! PROOFS. What a command and a step do, as the later proofs of this part use them: the successes of a command as one
inductive predicate, and the step's four kinds (70_reset_and_hazards.md R220, R230; 20_memory.md R63, R64). -/

namespace Sys2Proof.Machine

/-! ### The successes of a command -/

/-- Command `i`, executed in `s`, succeeds and leaves `t`: the own effects that `exec_cases` lists. -/
inductive Succeeds : Instr → State → State → Prop
  | nop (s : State) : Succeeds .nop s s.succeed
  | reset (s : State) : Succeeds .reset s (resetImage s)
  | config {s : State} {rw : BitVec 4} {ro : BitVec 5} {gw : BitVec 4} {go : BitVec 5} {bw : BitVec 4} {bo : BitVec 5}
      (legal : (configLayout rw ro gw go bw bo).legal s.params.palW.bits = true) :
      Succeeds (.config rw ro gw go bw bo) s (acceptConfig (configWord rw ro gw go bw bo) s)
  | observe {s : State} (pix : Pixel) (phase : s.phase = .accum) (room : s.total ≠ 0xFFFFFFFF#32) :
      Succeeds (.observe pix) s (observePixel pix s)
  | build {s : State} (phase : s.phase = .accum) (configured : s.cfgValid = true) : Succeeds .build s (buildPalette s)
  | answer {i : Instr} {s : State} {v : BitVec 64} (answers : Answers s v i) : Succeeds i s (s.answer v)

/-- A command ends in an error or succeeds (60_exceptions.md R192). -/
theorem raise_or_succeeds {i : Instr} {s t : State} (h : exec i s = .next t) :
    (∃ e, e ≠ .ok ∧ t = s.raise e) ∨ Succeeds i s t := by
  rcases exec_cases i s with ⟨e, hne, he⟩ | ⟨rfl, he⟩ | ⟨rfl, he⟩ | ⟨_, _, _, _, _, _, rfl, hl, he⟩ |
    ⟨pix, rfl, hp, ht, he⟩ | ⟨rfl, hp, hc, he⟩ | ⟨v, ha, he⟩ <;> cases he.symm.trans h
  · exact .inl ⟨e, hne, rfl⟩
  · exact .inr (.nop s)
  · exact .inr (.reset s)
  · exact .inr (.config hl)
  · exact .inr (.observe pix hp ht)
  · exact .inr (.build hp hc)
  · exact .inr (.answer ha)

theorem Succeeds.lastErr_eq {i : Instr} {s t : State} (h : Succeeds i s t) : t.lastErr = .ok := by
  cases h <;> simp

theorem Succeeds.errSeen_eq {i : Instr} {s t : State} (h : Succeeds i s t) : t.errSeen = s.errSeen := by
  cases h <;> simp

/-- CFG_VALID is CONFIG's alone (10_state.md R26). -/
theorem Succeeds.cfgValid_eq {i : Instr} {s t : State} (h : Succeeds i s t) :
    t.cfgValid = s.cfgValid ∨ t.cfgValid = true ∧ ∃ rw ro gw go bw bo, i = .config rw ro gw go bw bo := by
  cases h with
  | config legal => exact .inr ⟨rfl, _, _, _, _, _, _, rfl⟩
  | build phase configured => exact .inl (buildPalette_cfgValid s)
  | nop | reset | observe | answer => exact .inl rfl

/-- The phase is RESET's and BUILD's (10_state.md R30). -/
theorem Succeeds.phase_eq {i : Instr} {s t : State} (h : Succeeds i s t) :
    t.phase = s.phase ∨ (i = .reset ∧ t.phase = .accum) ∨
      (i = .build ∧ s.phase = .accum ∧ s.cfgValid = true ∧ t.phase = .built) := by
  cases h with
  | reset => exact .inr (.inl ⟨rfl, rfl⟩)
  | build phase configured => exact .inr (.inr ⟨rfl, phase, configured, buildPalette_phase s⟩)
  | nop | config | observe | answer => exact .inl rfl

/-- RESULT is the answering commands' (10_state.md R31). -/
theorem Succeeds.result_eq {i : Instr} {s t : State} (h : Succeeds i s t) :
    t.result = s.result ∨ ∃ v, Answers s v i := by
  cases h with
  | answer answers => exact .inr ⟨_, answers⟩
  | build => exact .inl (buildPalette_result s)
  | nop | reset | config | observe => exact .inl rfl

/-- The six commands that answer (10_state.md R31). -/
theorem Answers.answering {s : State} {v : BitVec 64} {i : Instr} (h : Answers s v i) :
    (∃ p, i = .lookup p) ∨ (∃ c f, i = .rdcoarse c f) ∨ (∃ k f, i = .rdfine k f) ∨ (∃ k, i = .rdmap k) ∨
      (∃ r, i = .rdsel r) ∨ ∃ x, i = .rdpal x := by
  cases i with
  | nop | reset | config | observe | build => exact h.elim
  | lookup p => exact .inl ⟨p, rfl⟩
  | rdcoarse c f => exact .inr (.inl ⟨c, f, rfl⟩)
  | rdfine k f => exact .inr (.inr (.inl ⟨k, f, rfl⟩))
  | rdmap k => exact .inr (.inr (.inr (.inl ⟨k, rfl⟩)))
  | rdsel r => exact .inr (.inr (.inr (.inr (.inl ⟨r, rfl⟩))))
  | rdpal x => exact .inr (.inr (.inr (.inr (.inr ⟨x, rfl⟩))))

/-- Nothing answers in UNINIT (60_exceptions.md R203). -/
theorem Answers.phase_ne_uninit {s : State} {v : BitVec 64} {i : Instr} (h : Answers s v i) : s.phase ≠ .uninit := by
  cases i with
  | nop | reset | config | observe | build => exact h.elim
  | rdcoarse | rdfine | rdmap => exact h.1
  | lookup | rdsel | rdpal => rw [h.1]; decide

/-! ### The kinds of step -/

theorem not_resetNext_of_engineNext {s : State} (he : s.engineNext) : ¬ s.resetNext := by
  unfold State.resetNext
  obtain hi | hi := he <;> simp [hi]

theorem not_engineNext_of_memRead {s : State} {host addr size : Nat}
    (h : s.inputs.head? = some (.memRead host addr size)) : ¬ s.engineNext := by
  rintro (hi | hi) <;> simp [hi] at h

theorem not_engineNext_of_memWrite {s : State} {host addr size : Nat} {w : Word}
    (h : s.inputs.head? = some (.memWrite host addr size w)) : ¬ s.engineNext := by
  rintro (hi | hi) <;> simp [hi] at h

/-- The pending word is one command's. -/
theorem runs_unique {s : State} {i j : Instr} (hi : s.runs i) (hj : s.runs j) : i = j := by
  obtain ⟨-, w, hw, hd⟩ := hi
  obtain ⟨-, w', hw', hd'⟩ := hj
  cases hw.symm.trans hw'
  cases hd.symm.trans hd'
  rfl

/-- The step of a command is its execution and completion (70_reset_and_hazards.md R230). -/
theorem step_of_runs {s u : State} {i : Instr} (h : s.runs i) (he : exec i s.popInput = .next u) :
    step s = .next u.complete := by
  obtain ⟨hn, w, hw, hd⟩ := h
  simp [step_of_engineNext s hn, engineTurn, hw, execWord, hd, he, completeOutcome]

theorem step_of_resetNext {s : State} (h : s.resetNext) : step s = .next (hardwareReset s.popInput) := by
  unfold State.resetNext at h
  simp [step, h]

/-- The states agree but for PENDING and OVR, which a host's write reaches, and the model's own record of the hosts. -/
def State.SameButBus (s t : State) : Prop :=
  t = { s with pending := t.pending, ovr := t.ovr, inputs := t.inputs, replies := t.replies, draws := t.draws }

section
variable {s t : State} (h : s.SameButBus t)
include h

theorem State.SameButBus.eq : t =
    { s with pending := t.pending, ovr := t.ovr, inputs := t.inputs, replies := t.replies, draws := t.draws } := h

theorem State.SameButBus.lastErr_eq : t.lastErr = s.lastErr := by rw [h.eq]
theorem State.SameButBus.errSeen_eq : t.errSeen = s.errSeen := by rw [h.eq]
theorem State.SameButBus.cfgValid_eq : t.cfgValid = s.cfgValid := by rw [h.eq]
theorem State.SameButBus.phase_eq : t.phase = s.phase := by rw [h.eq]
theorem State.SameButBus.result_eq : t.result = s.result := by rw [h.eq]

end

theorem sameButBus_issue (w : Word) (s : State) : s.SameButBus (issue w s) := by
  unfold issue
  split <;> rfl

theorem sameButBus_popInput {s t : State} (h : s.popInput.SameButBus t) : s.SameButBus t := h

/-- A step is a command's error, a command's success, a hardware reset or a host's access, which reaches nothing but
PENDING and OVR (70_reset_and_hazards.md R220, R230; 20_memory.md R63, R64). -/
theorem step_kinds {s t : State} (h : step s = .next t) :
    (s.engineNext ∧ ∃ e, e ≠ .ok ∧ t = (s.popInput.raise e).complete) ∨
    (∃ i u, s.runs i ∧ Succeeds i s.popInput u ∧ t = u.complete) ∨
    (s.resetNext ∧ t = hardwareReset s.popInput) ∨
    (¬ s.engineNext ∧ ¬ s.resetNext ∧ s.SameButBus t) := by
  rcases step_cases s t h with ⟨hn, he⟩ | ⟨_, _, _, _, hi, -, rfl⟩ | ⟨_, _, _, w, _, hi, -, ht⟩ | hr
  · obtain ⟨w, hw, ⟨i, u, hd, hu, rfl⟩ | ⟨x, -, rfl⟩⟩ := engineTurn_cases _ t he
    · obtain ⟨e, hne, rfl⟩ | hs := raise_or_succeeds hu
      · exact .inl ⟨hn, e, hne, rfl⟩
      · exact .inr (.inl ⟨i, u, ⟨hn, w, hw, hd⟩, hs, rfl⟩)
    · exact .inl ⟨hn, .illegal, by decide, rfl⟩
  · exact .inr (.inr (.inr ⟨not_engineNext_of_memRead hi, by simp [State.resetNext, hi], rfl⟩))
  · refine .inr (.inr (.inr ⟨not_engineNext_of_memWrite hi, by simp [State.resetNext, hi], ?_⟩))
    obtain ⟨-, rfl⟩ | ⟨-, rfl⟩ := ht
    · exact sameButBus_popInput (sameButBus_issue w _)
    · rfl
  · exact .inr (.inr (.inl hr))

end Sys2Proof.Machine
end

section
/-! PROOFS. The invariant (10_state.md R32, R41, R44, R45; 41_accumulator.md R109; 42_palette_builder.md R122, R127): it
holds after a hardware reset, and every step keeps it. -/

namespace Sys2Proof.Machine

/-! ### The parts of the invariant depend on their registers alone -/

theorem State.AccumInv.congr {s t : State} (h : s.AccumInv) (hc : s.coarse = t.coarse) (hf : s.fine = t.fine)
    (hm : s.map = t.map) (ht : s.total = t.total) : t.AccumInv := by
  obtain ⟨h1, h2, h3, h4⟩ := h
  simp only [coarseAt_congr hc, fineAt_congr hf, mapAt_congr hm, ht] at h1 h2 h3 h4
  exact ⟨h1, h2, h3, h4⟩

theorem selected_congr {s t : State} (h : s.sel = t.sel) (k : FineKey) : s.selected k = t.selected k := by
  simp only [State.selected, h]

theorem precedes_congr {s t : State} (h : s.fine = t.fine) (a b : FineKey) : s.precedes a b ↔ t.precedes a b := by
  simp only [State.precedes, fineAt_congr h]

theorem State.BuiltInv.congr {s t : State} (h : s.BuiltInv) (hc : s.coarse = t.coarse) (hf : s.fine = t.fine)
    (hm : s.map = t.map) (hs : s.sel = t.sel) (ht : s.total = t.total) : t.BuiltInv := by
  obtain ⟨h1, h2, h3, h4, h5, h6, h7⟩ := h
  simp only [coarseAt_congr hc, fineAt_congr hf, mapAt_congr hm, selAt_congr hs, selected_congr hs, precedes_congr hf,
    ht] at h1 h2 h3 h4 h5 h6 h7
  exact ⟨h1, h2, h3, h4, h5, h6, h7⟩

/-- The invariant lets PENDING, OVR and the record of the hosts be anything, and LASTERR, ERRSEEN and RESULT where they
go together with each other and with the phase. -/
theorem State.Inv.of_frame {s t : State} (h : s.Inv)
    (hframe : t = { s with
      pending := t.pending, errSeen := t.errSeen, ovr := t.ovr, lastErr := t.lastErr, result := t.result,
      inputs := t.inputs, replies := t.replies, draws := t.draws })
    (herr : t.lastErr ≠ .ok → t.errSeen = true) (hres : t.phase = .uninit → t.result = 0#64) : t.Inv := by
  rw [hframe] at herr hres ⊢
  exact
    { config_legal := h.config_legal
      config_reserved := h.config_reserved
      config_absent := h.config_absent
      error_seen := herr
      palette_width := h.palette_width
      uninit_idle := fun hp => ⟨(h.uninit_idle hp).1, hres hp⟩
      accum := fun hp => (h.accum hp).congr rfl rfl rfl rfl
      built := fun hp => (h.built hp).congr rfl rfl rfl rfl rfl
      bounded := h.bounded }

theorem State.Inv.result_eq_zero {s : State} (h : s.Inv) (hp : s.phase = .uninit) : s.result = 0#64 :=
  (h.uninit_idle hp).2

theorem State.Inv.of_sameButBus {s t : State} (h : s.Inv) (ht : s.SameButBus t) : t.Inv := by
  rw [ht.eq]
  exact h.of_frame rfl h.error_seen h.result_eq_zero

theorem State.Inv.popInput {s : State} (h : s.Inv) : s.popInput.Inv := h.of_sameButBus rfl

theorem State.Inv.complete {s : State} (h : s.Inv) : s.complete.Inv := h.of_sameButBus rfl

theorem State.Inv.raise {s : State} (h : s.Inv) (e : ErrCode) : (s.raise e).Inv :=
  h.of_frame rfl (fun _ => rfl) h.result_eq_zero

theorem State.Inv.succeed {s : State} (h : s.Inv) : s.succeed.Inv :=
  h.of_frame rfl (fun he => absurd rfl he) h.result_eq_zero

theorem State.Inv.answer {s : State} (h : s.Inv) (hp : s.phase ≠ .uninit) (v : BitVec 64) : (s.answer v).Inv :=
  h.of_frame rfl (fun he => absurd rfl he) fun hu => absurd hu hp

/-! ### After a hardware reset -/

theorem toNat_ofNat_mod_lt (v n : Nat) : (BitVec.ofNat 32 (v % 2 ^ n)).toNat < 2 ^ n := by
  rw [BitVec.toNat_ofNat]
  exact (Nat.mod_le _ _).trans_lt (Nat.mod_lt _ (Nat.two_pow_pos n))

theorem afterReset_palAt_lt (p : Params) (n : Nat) (es : List BusEvent) (rs : List HostReply) (i : Fin 192) :
    ((State.afterReset p n es rs).palAt i.val).toNat < 2 ^ p.palW.bits := by
  rw [palAt_of_lt _ _ i.isLt, getElem_congr_coll (afterReset_pal p n es rs)]
  unfold resetPal
  rw [Vector.getElem_ofFn]
  exact toNat_ofNat_mod_lt _ _

/-- In UNINIT the invariant says nothing of the arrays but the palette entries' width (10_state.md R41, R43). -/
theorem afterReset_inv (p : Params) (n : Nat) (es : List BusEvent) (rs : List HostReply) :
    (State.afterReset p n es rs).Inv where
  config_legal h := by cases h
  config_reserved := by rw [afterReset_packcfg, BitVec.zero_and]
  config_absent _ := rfl
  error_seen h := absurd rfl h
  palette_width := afterReset_palAt_lt p n es rs
  uninit_idle _ := ⟨rfl, rfl⟩
  accum h := by cases h
  built h := by cases h
  bounded h := absurd rfl h

/-- Settles O58. -/
theorem invariantHoldsAtReset : Obligations.InvariantHoldsAtReset :=
  ⟨afterReset_inv _ _ _ _, fun _ => afterReset_inv _ _ _ _⟩

/-! ### CONFIG -/

/-- A `CONFIG` word as a number: each field at its offset (30_encoding.md R81). -/
theorem configWord_toNat (rw : BitVec 4) (ro : BitVec 5) (gw : BitVec 4) (go : BitVec 5) (bw : BitVec 4)
    (bo : BitVec 5) : (configWord rw ro gw go bw bo).toNat =
      2 * 2 ^ 28 + rw.toNat * 2 ^ 24 + ro.toNat * 2 ^ 19 + gw.toNat * 2 ^ 15 + go.toNat * 2 ^ 10 + bw.toNat * 2 ^ 6 +
        bo.toNat * 2 := by
  simp only [configWord, toNat_append_eq, BitVec.toNat_ofNat]
  omega

theorem layoutOf_configWord (rw : BitVec 4) (ro : BitVec 5) (gw : BitVec 4) (go : BitVec 5) (bw : BitVec 4)
    (bo : BitVec 5) : layoutOf (configWord rw ro gw go bw bo) = configLayout rw ro gw go bw bo := by
  have hrw := rw.isLt
  have hro := ro.isLt
  have hgw := gw.isLt
  have hgo := go.isLt
  have hbw := bw.isLt
  have hbo := bo.isLt
  simp only [layoutOf, configLayout, toNat_extractLsb'_eq, configWord_toNat, Layout.mk.injEq]
  omega

/-- PACKCFG's mask keeps every field (10_state.md R32, 44_control_and_readback.md R162). -/
theorem layoutOf_masked (w : Word) : layoutOf (w &&& 0x0FFFFFFE#32) = layoutOf w := by
  have h4 : ∀ x : BitVec 4, x &&& 15#4 = x := fun _ => BitVec.and_allOnes
  have h5 : ∀ x : BitVec 5, x &&& 31#5 = x := fun _ => BitVec.and_allOnes
  simp [layoutOf, BitVec.extractLsb'_and, h4, h5]

/-- PACKCFG's mask clears every bit without a field (10_state.md R32). -/
theorem masked_reserved (w : Word) : w &&& 0x0FFFFFFE#32 &&& 0xF0000001#32 = 0#32 := by
  rw [BitVec.and_assoc, show 0x0FFFFFFE#32 &&& 0xF0000001#32 = 0#32 from rfl, BitVec.and_zero]

/-- Settles O33: the mask keeps the fields of the word, and those are the operands. -/
theorem acceptedLayoutIsTheOneConfigured : Obligations.AcceptedLayoutIsTheOneConfigured :=
  fun rw ro gw go bw bo =>
    ⟨(layoutOf_masked _).trans (layoutOf_configWord rw ro gw go bw bo), masked_reserved _⟩

/-- An accepted layout is a legal one, and CONFIG touches nothing else of the invariant (44_control_and_readback.md
R162). -/
theorem State.Inv.acceptConfig {s : State} (h : s.Inv) {rw : BitVec 4} {ro : BitVec 5} {gw : BitVec 4} {go : BitVec 5}
    {bw : BitVec 4} {bo : BitVec 5} (hl : (configLayout rw ro gw go bw bo).legal s.params.palW.bits = true) :
    (acceptConfig (configWord rw ro gw go bw bo) s).Inv where
  config_legal _ := by
    rw [acceptConfig_packcfg, layoutOf_masked, layoutOf_configWord]
    exact hl
  config_reserved := masked_reserved _
  config_absent hv := by cases hv
  error_seen he := absurd rfl he
  palette_width := h.palette_width
  uninit_idle := h.uninit_idle
  accum hp := (h.accum hp).congr rfl rfl rfl rfl
  built hp := (h.built hp).congr rfl rfl rfl rfl rfl
  bounded := h.bounded

/-! ### RESET -/

theorem value_bucket_empty (f : BucketField) : Bucket.empty.value f = 0 := by cases f <;> rfl

theorem bucket_empty_bounded : Bucket.empty.Bounded := ⟨by decide, by decide, by decide⟩

/-- In an empty image all counts and sums are 0 (41_accumulator.md R100). -/
theorem resetImage_accumInv (s : State) : (resetImage s).AccumInv where
  coarse_is_children c f := by
    simp only [resetImage_coarseAt, resetImage_fineAt, value_bucket_empty, ite_self, sumFine_const]
  total_is_coarse := by
    simp only [resetImage_coarseAt, show Bucket.empty.count.toNat = 0 from rfl, sumCoarse_const]
    rfl
  total_is_fine := by
    simp only [resetImage_fineAt, show Bucket.empty.count.toNat = 0 from rfl, sumFine_const]
    rfl
  map_unassigned := resetImage_mapAt s

theorem State.Inv.resetImage {s : State} (h : s.Inv) : (resetImage s).Inv where
  config_legal := h.config_legal
  config_reserved := h.config_reserved
  config_absent := h.config_absent
  error_seen he := absurd rfl he
  palette_width := h.palette_width
  uninit_idle hp := by cases hp
  accum _ := resetImage_accumInv s
  built hp := by cases hp
  bounded _ := by
    simp only [resetImage_coarseAt, resetImage_fineAt]
    exact ⟨fun _ => bucket_empty_bounded, fun _ => bucket_empty_bounded⟩

/-! ### OBSERVE -/

/-- A bucket with room for one more pixel stays within its bounds (41_accumulator.md R109). -/
theorem Bucket.Bounded.add {b : Bucket} (hb : b.Bounded) (hc : b.count.toNat < 0xFFFFFFFF) (p : Pixel) :
    (b.add p).Bounded := by
  have hv := value_add hb hc p
  have hcount : (b.add p).count.toNat = b.count.toNat + 1 := hv .count
  have hred : (b.add p).rSum.toNat = b.rSum.toNat + (Machine.red p).toNat := hv .red
  have hgreen : (b.add p).gSum.toNat = b.gSum.toNat + (Machine.green p).toNat := hv .green
  have hblue : (b.add p).bSum.toNat = b.bSum.toNat + (Machine.blue p).toNat := hv .blue
  have hrp := (Machine.red p).isLt
  have hgp := (Machine.green p).isLt
  have hbp := (Machine.blue p).isLt
  obtain ⟨hr, hg, hbl⟩ := hb
  refine ⟨?_, ?_, ?_⟩ <;> omega

theorem observePixel_total_toNat {s : State} (hlt : s.total.toNat < 0xFFFFFFFF) (p : Pixel) :
    (observePixel p s).total.toNat = s.total.toNat + 1 := by
  rw [observePixel_total]
  bv_omega

section
variable {s : State} (hacc : s.AccumInv) (hfine : ∀ k, (s.fineAt k).Bounded) (hcoarse : ∀ c, (s.coarseAt c).Bounded)
  (hlt : s.total.toNat < 0xFFFFFFFF) (p : Pixel)
include hacc hlt

include hcoarse in
theorem observePixel_coarse_value (c : CoarseKey) (f : BucketField) : ((observePixel p s).coarseAt c).value f =
    if c = coarseKey p then (s.coarseAt c).value f + addend p f else (s.coarseAt c).value f := by
  rw [observePixel_coarseAt]
  split
  · exact value_add (hcoarse c) ((count_coarseAt_le_total hacc c).trans_lt hlt) p f
  · rfl

include hfine in
theorem observePixel_fine_value (k : FineKey) (f : BucketField) : ((observePixel p s).fineAt k).value f =
    if k = fineKey p then (s.fineAt k).value f + addend p f else (s.fineAt k).value f := by
  rw [observePixel_fineAt]
  split
  · exact value_add (hfine k) ((count_fineAt_le_total hacc k).trans_lt hlt) p f
  · rfl

include hfine in
/-- The pixel goes to its fine bucket, a child of its coarse bucket and of no other (00_scope.md R16). -/
theorem observePixel_children (c : CoarseKey) (f : BucketField) :
    (sumFine fun k => if parent k = c then ((observePixel p s).fineAt k).value f else 0) =
      (sumFine fun k => if parent k = c then (s.fineAt k).value f else 0) +
        if c = coarseKey p then addend p f else 0 := by
  refine sumFine_bump _ _ (fineKey p) _ fun k => ?_
  rw [observePixel_fine_value hacc hfine hlt]
  by_cases hk : k = fineKey p
  · have hparent : parent k = coarseKey p := hk ▸ parent_fineKey p
    rw [if_pos hk, if_pos hk, hparent]
    by_cases hc : coarseKey p = c
    · rw [if_pos hc, if_pos hc, if_pos hc.symm]
    · rw [if_neg hc, if_neg hc, if_neg fun e => hc e.symm]
  · rw [if_neg hk, if_neg hk]

include hfine hcoarse

/-- One pixel more in its two buckets and in TOTAL (10_state.md R44, 41_accumulator.md R105). -/
theorem observePixel_accumInv : (observePixel p s).AccumInv where
  coarse_is_children c f := by
    rw [observePixel_children hacc hfine hlt, observePixel_coarse_value hacc hcoarse hlt, ← hacc.coarse_is_children]
    split <;> rfl
  total_is_coarse := by
    rw [observePixel_total_toNat hlt, hacc.total_is_coarse]
    exact (sumCoarse_bump _ _ (coarseKey p) 1 fun c => observePixel_coarse_value hacc hcoarse hlt p c .count).symm
  total_is_fine := by
    rw [observePixel_total_toNat hlt, hacc.total_is_fine]
    exact (sumFine_bump _ _ (fineKey p) 1 fun k => observePixel_fine_value hacc hfine hlt p k .count).symm
  map_unassigned := hacc.map_unassigned

theorem observePixel_bounded : (∀ k, ((observePixel p s).fineAt k).Bounded) ∧
    ∀ c, ((observePixel p s).coarseAt c).Bounded := by
  refine ⟨fun k => ?_, fun c => ?_⟩
  · rw [observePixel_fineAt]
    split
    · exact (hfine k).add ((count_fineAt_le_total hacc k).trans_lt hlt) p
    · exact hfine k
  · rw [observePixel_coarseAt]
    split
    · exact (hcoarse c).add ((count_coarseAt_le_total hacc c).trans_lt hlt) p
    · exact hcoarse c

end

theorem State.Inv.observePixel {s : State} (h : s.Inv) (hp : s.phase = .accum) (ht : s.total ≠ 0xFFFFFFFF#32)
    (p : Pixel) : (observePixel p s).Inv := by
  have hlt := toNat_lt_of_ne_limit ht
  have hacc := h.accum hp
  obtain ⟨hfine, hcoarse⟩ := h.bounded (by rw [hp]; decide)
  exact
    { config_legal := h.config_legal
      config_reserved := h.config_reserved
      config_absent := h.config_absent
      error_seen := fun he => absurd rfl he
      palette_width := h.palette_width
      uninit_idle := fun hu => by cases hp.symm.trans hu
      accum := fun _ => observePixel_accumInv hacc hfine hcoarse hlt p
      built := fun hb => by cases hp.symm.trans hb
      bounded := fun _ => observePixel_bounded hacc hfine hcoarse hlt p }

/-! ### BUILD -/

/-- In ACCUM with a configuration accepted, BUILD builds (42_palette_builder.md R120, R121). -/
theorem exec_build_eq {s : State} (hp : s.phase = .accum) (hc : s.cfgValid = true) :
    exec .build s = .next (buildPalette s) := by
  have hperm : permitted .build s.phase = true := by rw [hp]; rfl
  simp only [exec, execBuild, guardPhase_of_permitted hperm, if_pos hc]

theorem buildPalette_selAt_inj (s : State) (r r' : Rank) (h : (buildPalette s).selAt r = (buildPalette s).selAt r') :
    r = r' := by
  rw [buildPalette_selAt, buildPalette_selAt] at h
  exact selAt_selectFine_inj s r r' h

theorem buildPalette_precedes (s : State) (a b : FineKey) : (buildPalette s).precedes a b ↔ s.precedes a b :=
  precedes_congr (buildPalette_fine s) a b

theorem buildPalette_selected (s : State) (k : FineKey) : (buildPalette s).selected k = (selectFine s).selected k :=
  selected_congr (by simp) k

/-- What the ranks take from a coarse field is what its selected children hold (42_palette_builder.md R125). -/
theorem takenBy_selectFine (s : State) (c : CoarseKey) (f : BucketField) : takenBy (selectFine s) ranks c f =
    sumFine fun k => if parent k = c ∧ (buildPalette s).selected k = true then (s.fineAt k).value f else 0 := by
  rw [takenBy_ranks]
  refine (sumRanks_selAt (selectFine s) (selAt_selectFine_inj s)
    fun k => if parent k = c then (s.fineAt k).value f else 0).trans (congrArg sumFine (funext fun k => ?_))
  rw [buildPalette_selected, ← ite_and]
  simp only [and_comm]

/-- A coarse field is its selected children's and its unselected children's (10_state.md R44). -/
theorem coarse_value_split {s : State} (hacc : s.AccumInv) (c : CoarseKey) (f : BucketField) :
    (s.coarseAt c).value f = takenBy (selectFine s) ranks c f +
      sumFine fun k => if parent k = c ∧ (buildPalette s).selected k = false then (s.fineAt k).value f else 0 := by
  rw [hacc.coarse_is_children, takenBy_selectFine, sumFine_split (buildPalette s).selected]
  simp only [← ite_and, and_comm]

/-- The corrected coarse fields are the unselected children's (42_palette_builder.md R127). -/
theorem buildPalette_coarse_value {s : State} (hacc : s.AccumInv) (c : CoarseKey) (f : BucketField) :
    ((buildPalette s).coarseAt c).value f =
      sumFine fun k => if parent k = c ∧ (buildPalette s).selected k = false then (s.fineAt k).value f else 0 := by
  have hsplit : ((selectFine s).coarseAt c).value f = _ := coarse_value_split hacc c f
  rw [buildPalette_coarseAt, value_correctCoarse _ _ _ (by rw [hsplit]; exact Nat.le_add_right _ _), hsplit,
    Nat.add_sub_cancel_left]

/-- No pixel is lost or counted twice: each fine bucket counts either at its rank or in its parent
(42_palette_builder.md R135). -/
theorem buildPalette_conserved {s : State} (hacc : s.AccumInv) : s.total.toNat =
    (sumCoarse fun c => ((buildPalette s).coarseAt c).count.toNat) +
      sumRanks fun r => (s.fineAt ((buildPalette s).selAt r)).count.toNat := by
  have hcoarse : (sumCoarse fun c => ((buildPalette s).coarseAt c).count.toNat) =
      sumFine fun k => if (buildPalette s).selected k = false then (s.fineAt k).count.toNat else 0 := by
    rw [sumFine_by_parent]
    refine congrArg sumCoarse (funext fun c => (buildPalette_coarse_value hacc c .count).trans ?_)
    simp only [ite_and, Bucket.value]
  rw [hacc.total_is_fine, sumFine_split (buildPalette s).selected, hcoarse,
    sumRanks_selAt _ (buildPalette_selAt_inj s) fun k => (s.fineAt k).count.toNat, Nat.add_comm]

theorem buildPalette_builtInv {s : State} (hacc : s.AccumInv) : (buildPalette s).BuiltInv where
  sel_distinct := buildPalette_selAt_inj s
  sel_in_order r r' h := by
    rw [buildPalette_precedes, buildPalette_selAt, buildPalette_selAt]
    exact selAt_selectFine_sorted s r r' h
  sel_first r k h := by
    rw [buildPalette_precedes, buildPalette_selAt]
    exact selectFine_first s r k ((buildPalette_selected s k).symm.trans h)
  map_selected := buildPalette_mapAt_selAt s
  map_unselected k h :=
    (buildPalette_mapAt_other s k ((not_selected_iff _ k).1 h)).trans (hacc.map_unassigned k)
  coarse_is_unselected c f := by
    simp only [buildPalette_fineAt]
    exact buildPalette_coarse_value hacc c f
  conserved := by
    simp only [buildPalette_total, buildPalette_fineAt]
    exact buildPalette_conserved hacc

theorem buildPalette_palAt_lt (s : State) (i : Fin 192) :
    ((buildPalette s).palAt i.val).toNat < 2 ^ s.params.palW.bits := by
  rw [buildPalette_palAt _ _ i.isLt]
  exact toNat_ofNat_mod_lt _ _

theorem sumFine_mul (m : Nat) (f : FineKey → Nat) : (sumFine fun k => m * f k) = m * sumFine f := by
  unfold sumFine
  exact (Finset.mul_sum _ _ _).symm

/-- A bound of every fine bucket holds of a coarse bucket that is a sum of some of them (41_accumulator.md R109). -/
theorem sumFine_value_le (p : FineKey → Prop) [DecidablePred p] (b : FineKey → Bucket) (m : Nat) (f : BucketField)
    (h : ∀ k, (b k).value f ≤ m * (b k).value .count) :
    (sumFine fun k => if p k then (b k).value f else 0) ≤
      m * sumFine fun k => if p k then (b k).value .count else 0 := by
  rw [← sumFine_mul]
  refine sumFine_le_sumFine _ _ fun k => ?_
  split
  · exact h k
  · exact Nat.zero_le _

theorem buildPalette_coarse_bounded {s : State} (hacc : s.AccumInv) (hfine : ∀ k, (s.fineAt k).Bounded)
    (c : CoarseKey) : ((buildPalette s).coarseAt c).Bounded := by
  have hle : ∀ m f, (∀ k, (s.fineAt k).value f ≤ m * (s.fineAt k).value .count) →
      ((buildPalette s).coarseAt c).value f ≤ m * ((buildPalette s).coarseAt c).value .count := by
    intro m f h
    rw [buildPalette_coarse_value hacc, buildPalette_coarse_value hacc]
    exact sumFine_value_le _ s.fineAt m f h
  exact ⟨hle 31 .red fun k => (hfine k).red, hle 63 .green fun k => (hfine k).green,
    hle 31 .blue fun k => (hfine k).blue⟩

theorem State.Inv.buildPalette {s : State} (h : s.Inv) (hp : s.phase = .accum) : (buildPalette s).Inv where
  config_legal := by simpa using h.config_legal
  config_reserved := by simpa using h.config_reserved
  config_absent := by simpa using h.config_absent
  error_seen he := absurd (buildPalette_lastErr s) he
  palette_width := by simpa using buildPalette_palAt_lt s
  uninit_idle hu := by simp at hu
  accum ha := by simp at ha
  built _ := buildPalette_builtInv (h.accum hp)
  bounded _ := by
    have hfine := (h.bounded (by rw [hp]; decide)).1
    exact ⟨fun k => by rw [buildPalette_fineAt]; exact hfine k, buildPalette_coarse_bounded (h.accum hp) hfine⟩

/-- Settles O25: BUILD leaves TOTAL and F, and conserves. -/
theorem buildConservesThePixelCount : Obligations.BuildConservesThePixelCount := by
  intro s h hp hc
  have hconserved := (buildPalette_builtInv (h.accum hp)).conserved
  exact ⟨_, exec_build_eq hp hc, buildPalette_total s, hconserved⟩

/-! ### Every step -/

theorem State.Inv.of_succeeds {i : Instr} {s t : State} (h : s.Inv) (hs : Succeeds i s t) : t.Inv := by
  cases hs with
  | nop => exact h.succeed
  | reset => exact h.resetImage
  | config legal => exact h.acceptConfig legal
  | observe pix phase room => exact h.observePixel phase room pix
  | build phase configured => exact h.buildPalette phase
  | answer answers => exact h.answer answers.phase_ne_uninit _

/-- Settles O59, by the kinds of step. -/
theorem stepKeepsTheInvariant : Obligations.StepKeepsTheInvariant := by
  intro s t h hstep
  rcases step_kinds hstep with ⟨-, e, -, rfl⟩ | ⟨i, u, -, hs, rfl⟩ | ⟨-, rfl⟩ | ⟨-, -, hsame⟩
  · exact (h.popInput.raise e).complete
  · exact (h.popInput.of_succeeds hs).complete
  · exact afterReset_inv _ _ _ _
  · exact h.of_sameButBus hsame

end Sys2Proof.Machine
end

section
/-! PROOFS. Which steps and commands write the flags, the phase, RESULT and the register files (10_state.md R26 to R31,
R43, R46). -/

namespace Sys2Proof.Machine

/-! ### A hardware reset -/

theorem hardwareReset_eq_of_step {s t : State} (h : step s = .next t) (hr : s.resetNext) :
    t = hardwareReset s.popInput := by
  cases h.symm.trans (step_of_resetNext hr)
  rfl

/-- Settles O51: the reset's registers, STATUS among them, are constants. -/
theorem hardwareResetRestoresTheRegisters : Obligations.HardwareResetRestoresTheRegisters := by
  intro s hr
  refine ⟨_, step_of_resetNext hr, ?_⟩
  simp only [hardwareReset, State.busy, State.status, afterReset_pending, afterReset_phase, afterReset_cfgValid,
    afterReset_errSeen, afterReset_ovr, afterReset_lastErr, afterReset_result, afterReset_packcfg, afterReset_total,
    afterReset_params, popInput_params, true_and]
  decide

/-! ### LASTERR and ERRSEEN -/

/-- Settles O47: a step that is neither the engine's nor a reset is a host's access. -/
theorem lastErrorIsWrittenByCommandsAlone : Obligations.LastErrorIsWrittenByCommandsAlone := by
  intro s t h hn hr
  rcases step_kinds h with ⟨hn', -⟩ | ⟨_, _, ⟨hn', -⟩, -, -⟩ | ⟨hr', -⟩ | ⟨-, -, hsame⟩
  · exact absurd hn' hn
  · exact absurd hn' hn
  · exact absurd hr' hr
  · exact hsame.lastErr_eq

/-- Every step but a reset keeps ERRSEEN, but for a command's error, which sets it (10_state.md R27). -/
theorem step_errSeen {s t : State} (h : step s = .next t) (hr : ¬ s.resetNext) :
    (s.engineNext ∧ t.lastErr ≠ .ok ∧ t.errSeen = true) ∨
    (t.errSeen = s.errSeen ∧ (s.engineNext → t.lastErr = .ok)) := by
  rcases step_kinds h with ⟨hn, e, hne, rfl⟩ | ⟨_, u, -, hs, rfl⟩ | ⟨hr', -⟩ | ⟨hn, -, hsame⟩
  · exact .inl ⟨hn, hne, rfl⟩
  · exact .inr ⟨hs.errSeen_eq, fun _ => hs.lastErr_eq⟩
  · exact absurd hr' hr
  · exact .inr ⟨hsame.errSeen_eq, fun hn' => absurd hn' hn⟩

/-- Settles O44, from what a step does to ERRSEEN. -/
theorem errSeenIsSticky : Obligations.ErrSeenIsSticky := by
  intro s t h
  by_cases hr : s.resetNext
  · have ht : t.errSeen = false := by rw [hardwareReset_eq_of_step h hr]; rfl
    refine ⟨fun hn => absurd hr (not_resetNext_of_engineNext hn), fun _ => ht, fun _ _ => hr, fun _ ht' => ?_⟩
    cases ht.symm.trans ht'
  · obtain ⟨hn, hne, ht⟩ | ⟨heq, hok⟩ := step_errSeen h hr
    · refine ⟨fun _ _ => ht, fun hr' => absurd hr' hr, fun _ hf => ?_, fun _ _ => ⟨hn, hne⟩⟩
      cases ht.symm.trans hf
    · refine ⟨fun hn hne => absurd (hok hn) hne, fun hr' => absurd hr' hr, fun hs hf => ?_, fun hs ht => ?_⟩
      · cases hs.symm.trans (heq.symm.trans hf)
      · cases hs.symm.trans (heq.symm.trans ht)

/-! ### OVR -/

/-- No command touches OVR (10_state.md R28). -/
theorem exec_ovr {i : Instr} {s t : State} (h : exec i s = .next t) : t.ovr = s.ovr := by
  obtain ⟨e, -, rfl⟩ | hs := raise_or_succeeds h
  · rfl
  · cases hs <;> simp

theorem engineTurn_ovr {s t : State} (h : engineTurn s = .next t) : t.ovr = s.ovr := by
  obtain ⟨w, -, ⟨i, u, -, hu, rfl⟩ | ⟨x, -, rfl⟩⟩ := engineTurn_cases s t h
  · exact (complete_ovr u).trans (exec_ovr hu)
  · rfl

/-- A CMD write sets OVR exactly while a command is pending (20_memory.md R64). -/
theorem issue_ovr (w : Word) (s : State) : (issue w s).ovr = (s.ovr || s.busy) := by
  unfold issue State.busy
  cases s.pending <;> simp

theorem not_cmdWriteNext_of_engineNext {s : State} (h : s.engineNext) : ¬ s.cmdWriteNext :=
  fun ⟨_, _, hi⟩ => not_engineNext_of_memWrite hi h

theorem not_resetNext_of_cmdWriteNext {s : State} (h : s.cmdWriteNext) : ¬ s.resetNext := by
  obtain ⟨_, _, hi⟩ := h
  simp [State.resetNext, hi]

/-- An access that reaches CMD is one of four bytes at BASE (20_memory.md R60, 10_state.md R22). -/
theorem accessedReg_eq_cmd (p : Params) (addr size : Nat) :
    accessedReg p addr size = some .cmd ↔ addr = base p ∧ size = 4 := by
  rw [accessedReg_eq_some]
  constructor
  · rintro ⟨off, -, -, rfl, rfl, hreg⟩
    rw [(regAtOffset_eq_cmd off).1 hreg.symm]
    exact ⟨rfl, rfl⟩
  · rintro ⟨rfl, rfl⟩
    exact ⟨0, by decide, rfl, rfl, rfl, rfl⟩

/-- Every step but a reset keeps OVR, but for a CMD write while a command is pending (10_state.md R28). -/
theorem step_ovr {s t : State} (h : step s = .next t) (hr : ¬ s.resetNext) :
    (s.cmdWriteNext ∧ t.ovr = (s.ovr || s.busy)) ∨ (¬ s.cmdWriteNext ∧ t.ovr = s.ovr) := by
  rcases step_cases s t h with ⟨hn, he⟩ | ⟨_, _, _, _, hi, -, rfl⟩ |
    ⟨host, addr, size, w, r, hi, ha, ⟨rfl, rfl⟩ | ⟨hne, rfl⟩⟩ | ⟨hr', -⟩
  · exact .inr ⟨not_cmdWriteNext_of_engineNext hn, (engineTurn_ovr he).trans (popInput_ovr s)⟩
  · exact .inr ⟨by simp [State.cmdWriteNext, hi], rfl⟩
  · obtain ⟨rfl, rfl⟩ := (accessedReg_eq_cmd _ _ _).1 ha
    exact .inl ⟨⟨host, w, hi⟩, issue_ovr w s.popInput⟩
  · refine .inr ⟨?_, rfl⟩
    rintro ⟨host', w', hi'⟩
    cases hi.symm.trans hi'
    exact hne (Option.some.inj (ha.symm.trans ((accessedReg_eq_cmd _ _ _).2 ⟨rfl, rfl⟩)))
  · exact absurd hr' hr

/-- Settles O45, from what a step does to OVR. -/
theorem overrunIsSticky : Obligations.OverrunIsSticky := by
  intro s t h
  by_cases hr : s.resetNext
  · have ht : t.ovr = false := by rw [hardwareReset_eq_of_step h hr]; rfl
    refine ⟨fun hw => absurd hr (not_resetNext_of_cmdWriteNext hw), fun _ => ht, fun _ _ => hr, fun _ ht' => ?_⟩
    cases ht.symm.trans ht'
  · obtain ⟨hw, heq⟩ | ⟨hw, heq⟩ := step_ovr h hr
    · refine ⟨fun _ hb => by rw [heq, hb, Bool.or_true], fun hr' => absurd hr' hr, fun hs hf => ?_,
        fun hs ht => ⟨hw, ?_⟩⟩
      · rw [heq, hs] at hf
        cases hf
      · rwa [heq, hs, Bool.false_or] at ht
    · refine ⟨fun hw' => absurd hw' hw, fun hr' => absurd hr' hr, fun hs hf => ?_, fun hs ht => ?_⟩
      · cases hs.symm.trans (heq.symm.trans hf)
      · cases hs.symm.trans (heq.symm.trans ht)

/-! ### CFG_VALID -/

/-- A step that ends a CONFIG without an error has set CFG_VALID (10_state.md R26). -/
theorem cfgValid_of_config {s t : State} {rw : BitVec 4} {ro : BitVec 5} {gw : BitVec 4} {go : BitVec 5}
    {bw : BitVec 4} {bo : BitVec 5} (h : step s = .next t) (hruns : s.runs (.config rw ro gw go bw bo))
    (hok : t.lastErr = .ok) : t.cfgValid = true := by
  rcases step_kinds h with ⟨-, e, hne, rfl⟩ | ⟨i, u, hi, hs, rfl⟩ | ⟨hr, -⟩ | ⟨hn, -, -⟩
  · exact absurd hok hne
  · obtain rfl := runs_unique hruns hi
    cases hs with
    | config legal => rfl
    | answer answers => exact answers.elim
  · exact absurd hr (not_resetNext_of_engineNext hruns.1)
  · exact absurd hruns.1 hn

/-- Every step but a reset keeps CFG_VALID, but for an accepted CONFIG, which sets it (10_state.md R26). -/
theorem step_cfgValid {s t : State} (h : step s = .next t) (hr : ¬ s.resetNext) :
    t.cfgValid = s.cfgValid ∨ (t.cfgValid = true ∧ t.lastErr = .ok ∧
      ∃ rw ro gw go bw bo, s.runs (.config rw ro gw go bw bo)) := by
  rcases step_kinds h with ⟨-, e, -, rfl⟩ | ⟨i, u, hi, hs, rfl⟩ | ⟨hr', -⟩ | ⟨-, -, hsame⟩
  · exact .inl rfl
  · obtain heq | ⟨ht, rw, ro, gw, go, bw, bo, rfl⟩ := hs.cfgValid_eq
    · exact .inl heq
    · exact .inr ⟨ht, hs.lastErr_eq, rw, ro, gw, go, bw, bo, hi⟩
  · exact absurd hr' hr
  · exact .inl hsame.cfgValid_eq

/-! ### The phase -/

/-- A step keeps the phase, but for a reset, RESET and a successful BUILD (10_state.md R30). -/
theorem step_phase {s t : State} (h : step s = .next t) : t.phase = s.phase ∨ (s.resetNext ∧ t.phase = .uninit) ∨
    (s.runs .reset ∧ t.phase = .accum) ∨
    (s.runs .build ∧ s.phase = .accum ∧ s.cfgValid = true ∧ t.phase = .built ∧ t.lastErr = .ok) := by
  rcases step_kinds h with ⟨-, e, -, rfl⟩ | ⟨i, u, hi, hs, rfl⟩ | ⟨hr, rfl⟩ | ⟨-, -, hsame⟩
  · exact .inl rfl
  · obtain heq | ⟨rfl, ht⟩ | ⟨rfl, hp, hc, ht⟩ := hs.phase_eq
    · exact .inl heq
    · exact .inr (.inr (.inl ⟨hi, ht⟩))
    · exact .inr (.inr (.inr ⟨hi, hp, hc, ht, hs.lastErr_eq⟩))
  · exact .inr (.inl ⟨hr, rfl⟩)
  · exact .inl hsame.phase_eq

/-- Settles O48, from what a step does to the phase; RESET is allowed in every phase. -/
theorem phaseTransitions : Obligations.PhaseTransitions := by
  intro s t h
  refine ⟨fun hr => by rw [hardwareReset_eq_of_step h hr]; rfl, fun hruns => ?_, fun hne => ?_⟩
  · have hexec : exec .reset s.popInput = .next (resetImage s.popInput) := rfl
    cases h.symm.trans (step_of_runs hruns hexec)
    rfl
  · obtain heq | hr | hreset | ⟨hbuild, hp, -, ht, hok⟩ := step_phase h
    · exact absurd heq hne
    · exact .inl hr
    · exact .inr (.inl hreset)
    · exact .inr (.inr ⟨hbuild, hp, ht, hok⟩)

/-- A BUILD that changes the phase had a configuration (10_state.md R26, 42_palette_builder.md R121). -/
theorem cfgValid_of_build {s t : State} (h : step s = .next t) (hruns : s.runs .build) (hne : t.phase ≠ s.phase) :
    s.cfgValid = true := by
  obtain heq | ⟨hr, -⟩ | ⟨hreset, -⟩ | ⟨-, -, hc, -, -⟩ := step_phase h
  · exact absurd heq hne
  · exact absurd hr (not_resetNext_of_engineNext hruns.1)
  · cases runs_unique hruns hreset
  · exact hc

/-- Settles O46, from what a step does to CFG_VALID and to the phase. -/
theorem configValidityPersists : Obligations.ConfigValidityPersists := by
  intro s t h
  refine ⟨fun _ _ _ _ _ _ hruns hok => cfgValid_of_config h hruns hok,
    fun hr => by rw [hardwareReset_eq_of_step h hr]; rfl, fun hs hf => ?_, fun hs ht => ?_, cfgValid_of_build h⟩
  · by_contra hr
    obtain heq | ⟨ht, -, -⟩ := step_cfgValid h hr
    · cases hs.symm.trans (heq.symm.trans hf)
    · cases ht.symm.trans hf
  · have hr : ¬ s.resetNext := fun hr => by
      rw [hardwareReset_eq_of_step h hr] at ht
      cases ht
    obtain heq | ⟨-, hok, rw, ro, gw, go, bw, bo, hruns⟩ := step_cfgValid h hr
    · cases hs.symm.trans (heq.symm.trans ht)
    · exact ⟨rw, ro, gw, go, bw, bo, hruns, hok⟩

/-! ### RESULT -/

/-- Settles O49, by the kinds of step. -/
theorem resultIsWrittenOnlyByAnswers : Obligations.ResultIsWrittenOnlyByAnswers := by
  intro s t h hne
  rcases step_kinds h with ⟨-, e, -, rfl⟩ | ⟨i, u, hi, hs, rfl⟩ | ⟨hr, -⟩ | ⟨-, -, hsame⟩
  · exact absurd rfl hne
  · obtain heq | ⟨v, ha⟩ := hs.result_eq
    · exact absurd heq hne
    · exact .inr ⟨hs.lastErr_eq, i, hi, ha.answering⟩
  · exact .inl hr
  · exact absurd hsame.result_eq hne

/-! ### The register files -/

/-- Settles O50: an error writes none of them, and each success is of the command that may. -/
theorem registerFilesAreWrittenOnlyByTheirCommands : Obligations.RegisterFilesAreWrittenOnlyByTheirCommands := by
  intro i s t h
  obtain ⟨e, -, rfl⟩ | hs := raise_or_succeeds h
  · simp
  · cases hs <;> simp

end Sys2Proof.Machine
end

section
/-! PROOFS. The register window (10_state.md R22 to R35; 20_memory.md R63 to R65): the fields of STATUS, what a read
returns, and which writes are ignored. -/

namespace Sys2Proof.Machine

/-! ### The fields of STATUS -/

theorem ofBool_toNat_lt (b : Bool) : (BitVec.ofBool b).toNat < 2 := (BitVec.ofBool b).isLt

/-- STATUS as a number: each field at its offset (10_state.md R24). -/
theorem statusWord_toNat (busy : Bool) (phase : BitVec 2) (cfgValid errSeen ovr : Bool) (lastErr : BitVec 4) :
    (statusWord busy phase cfgValid errSeen ovr lastErr).toNat =
      (BitVec.ofBool busy).toNat + phase.toNat * 2 ^ 1 + (BitVec.ofBool cfgValid).toNat * 2 ^ 3 +
        (BitVec.ofBool errSeen).toNat * 2 ^ 4 + (BitVec.ofBool ovr).toNat * 2 ^ 5 + lastErr.toNat * 2 ^ 8 := by
  simp only [statusWord, toNat_append_eq, BitVec.toNat_ofNat]
  omega

/-- Every bit of STATUS is its field's (10_state.md R24). -/
theorem statusWord_fields {busy : Bool} {phase : BitVec 2} {cfgValid errSeen ovr : Bool} {lastErr : BitVec 4} {w : Word}
    (hw : w = statusWord busy phase cfgValid errSeen ovr lastErr) :
    w.extractLsb' 0 1 = BitVec.ofBool busy ∧ w.extractLsb' 1 2 = phase ∧ w.extractLsb' 3 1 = BitVec.ofBool cfgValid ∧
    w.extractLsb' 4 1 = BitVec.ofBool errSeen ∧ w.extractLsb' 5 1 = BitVec.ofBool ovr ∧ w.extractLsb' 6 2 = 0#2 ∧
    w.extractLsb' 8 4 = lastErr ∧ w.extractLsb' 12 20 = 0#20 := by
  have hbusy := ofBool_toNat_lt busy
  have hphase := phase.isLt
  have hcfg := ofBool_toNat_lt cfgValid
  have herr := ofBool_toNat_lt errSeen
  have hovr := ofBool_toNat_lt ovr
  have hlast := lastErr.isLt
  simp only [← BitVec.toNat_inj, toNat_extractLsb'_eq, hw, statusWord_toNat, BitVec.toNat_ofNat]
  omega

theorem ofBool_eq_one_iff (b : Bool) : BitVec.ofBool b = 1#1 ↔ b = true := by cases b <;> decide

theorem busy_iff (s : State) : s.busy = true ↔ s.pending ≠ none := by
  unfold State.busy
  cases s.pending <;> simp

/-- Settles O56, field by field; the codes are those of R30 and R190. -/
theorem statusFieldsAreWhereTheLayoutSays : Obligations.StatusFieldsAreWhereTheLayoutSays := by
  intro s
  obtain ⟨hbusy, hphase, hcfg, herr, hovr, hgap, hlast, htop⟩ := statusWord_fields (w := s.status) rfl
  refine ⟨?_, ?_, ?_, ?_, ?_, hgap, ?_, htop⟩
  · rw [hbusy, ofBool_eq_one_iff, busy_iff]
  · rw [hphase]
    cases s.phase <;> rfl
  · rw [hcfg, ofBool_eq_one_iff]
  · rw [herr, ofBool_eq_one_iff]
  · rw [hovr, ofBool_eq_one_iff]
  · rw [hlast]
    cases s.lastErr <;> rfl

/-! ### Reads -/

/-- A read of the window keeps its reply and changes nothing of the block (20_memory.md R63, R65). -/
theorem step_of_read {s : State} {host off : Nat} (h4 : off % 4 = 0) (hoff : off ≤ 0x3C)
    (hi : s.inputs.head? = some (.memRead host (base s.params + off) 4)) :
    step s = .next { s.popInput with
      replies := ⟨host, base s.params + off, readReg s.popInput (regAtOffset off)⟩ :: s.replies,
      draws := s.draws + 1 } := by
  simp [step, hi, hostRead, accessedReg_offset _ _ hoff h4]

theorem readReg_of_idle {s : State} (h : s.pending = none) (r : WindowReg) : readReg s r = idleRead s r := by
  simp [readReg, State.busy, h]

theorem readReg_of_busy {s : State} (h : s.pending ≠ none) (r : WindowReg) : readReg s r = busyRead s s.draws r := by
  simp [readReg, (busy_iff s).2 h]

/-- The offsets from 0x1C up are reserved (10_state.md R35). -/
theorem regAtOffset_reserved {off : Nat} (h : 0x1C ≤ off) : regAtOffset off = .reserved := by
  have h0 : off ≠ 0x00 ∧ off ≠ 0x04 ∧ off ≠ 0x08 ∧ off ≠ 0x0C ∧ off ≠ 0x10 ∧ off ≠ 0x14 ∧ off ≠ 0x18 := by omega
  simp [regAtOffset, h0]

/-- PARAM has room for every PAL_W (00_scope.md R10). -/
theorem paramWord_toNat (p : Params) : (paramWord p).toNat = p.palW.bits := by
  have := p.palW.le_thirtyTwo
  rw [paramWord, BitVec.toNat_ofNat]
  omega

/-- RESULT_LO and RESULT_HI are the halves of RESULT (10_state.md R31). -/
theorem resultLo_toNat (v : BitVec 64) : (v.extractLsb' 0 32).toNat = v.toNat % 2 ^ 32 := by
  rw [toNat_extractLsb'_eq, Nat.pow_zero, Nat.div_one]

theorem resultHi_toNat (v : BitVec 64) : (v.extractLsb' 32 32).toNat = v.toNat / 2 ^ 32 := by
  have := v.isLt
  rw [toNat_extractLsb'_eq]
  omega

/-- Settles O54: with nothing pending the read's value is the register's. -/
theorem idleReadReturnsTheRegister : Obligations.IdleReadReturnsTheRegister := by
  intro s host off hp h4 hoff hi
  refine ⟨_, _, step_of_read h4 hoff hi, ?_⟩
  rw [readReg_of_idle (s := s.popInput) hp]
  refine ⟨?_, ?_, ?_, ?_, ?_, ?_, ?_, fun h => by rw [regAtOffset_reserved h]; rfl⟩ <;> rintro rfl
  · rfl
  · rfl
  · exact resultLo_toNat s.result
  · exact resultHi_toNat s.result
  · rfl
  · rfl
  · exact paramWord_toNat s.params

/-- PHASE 3 is never read, whatever the free value (10_state.md R24; log entry 4). -/
theorem ofNat_fin_three_ne (n : Fin 3) : BitVec.ofNat 2 n.val ≠ 3#2 := by revert n; decide

/-- Settles O55: with a command pending STATUS is `busyStatus`, and the others named are constants. -/
theorem busyReadShowsBusy : Obligations.BusyReadShowsBusy := by
  intro s host off hp h4 hoff hi
  refine ⟨_, _, step_of_read h4 hoff hi, ?_⟩
  rw [readReg_of_busy (s := s.popInput) hp]
  refine ⟨?_, ?_, ?_⟩
  · rintro rfl
    obtain ⟨hbusy, hphase, -, -, -, hgap, -, htop⟩ := statusWord_fields (w := busyStatus s.draws) rfl
    exact ⟨hbusy, hphase ▸ ofNat_fin_three_ne _, hgap, htop⟩
  · rintro (rfl | h)
    · rfl
    · rw [regAtOffset_reserved h]
      rfl
  · rintro rfl
    exact paramWord_toNat s.params

/-! ### Writes -/

/-- A write to another register than CMD is ignored (20_memory.md R63). -/
theorem hostWrite_of_ne_cmd {s : State} {addr size : Nat} {r : WindowReg} (w : Word)
    (ha : accessedReg s.params addr size = some r) (hne : r ≠ .cmd) : hostWrite addr size w s = .next s := by
  cases r with
  | cmd => exact absurd rfl hne
  | status | resultLo | resultHi | packcfg | total | param | reserved => simp only [hostWrite, ha]

/-- Settles O53: of the window's offsets only 0 is CMD's. -/
theorem otherWritesAreIgnored : Obligations.OtherWritesAreIgnored := by
  intro s host off w h4 hlow hoff hi
  have hne : regAtOffset off ≠ .cmd := fun h => by
    rw [regAtOffset_eq_cmd] at h
    omega
  have hstep : step s = hostWrite (base s.params + off) 4 w s.popInput := by simp only [step, hi]
  exact hstep.trans (hostWrite_of_ne_cmd w (accessedReg_offset s.params off hoff h4) hne)

end Sys2Proof.Machine
end

section
/-! PROOFS. The memory interface (20_memory.md R62 to R68): the byte lanes, what a write to CMD does, where a step stops,
and that reads do not disturb a pending command (70_reset_and_hazards.md R230, R236). -/

namespace Sys2Proof.Machine

/-! ### Byte lanes -/

theorem laneByte_toNat (w : Word) (j : Nat) : (laneByte w j).toNat = w.toNat / 2 ^ (8 * j) % 256 :=
  toNat_extractLsb'_eq w (8 * j) 8

/-- The four lanes are the word's digits to the base 256 (20_memory.md R62). -/
theorem wordOfLanes_laneByte (w : Word) :
    wordOfLanes (laneByte w 0) (laneByte w 1) (laneByte w 2) (laneByte w 3) = w := by
  have hw := w.isLt
  apply BitVec.eq_of_toNat_eq
  simp only [wordOfLanes, toNat_append_eq, laneByte_toNat]
  omega

/-- Settles O8. -/
theorem lanesAreLittleEndian : Obligations.LanesAreLittleEndian :=
  fun w => ⟨fun j _ => laneByte_toNat w j, wordOfLanes_laneByte w⟩

/-! ### A host's access -/

section
variable {s : State} {host addr size : Nat} {w : Word} {r : WindowReg}

theorem step_of_memRead (hi : s.inputs.head? = some (.memRead host addr size)) :
    step s = hostRead host addr size s.popInput := by simp only [step, hi]

theorem step_of_memWrite (hi : s.inputs.head? = some (.memWrite host addr size w)) :
    step s = hostWrite addr size w s.popInput := by simp only [step, hi]

theorem hostRead_of_inside (ha : accessedReg s.params addr size = some r) :
    hostRead host addr size s =
      .next { s with replies := ⟨host, addr, readReg s r⟩ :: s.replies, draws := s.draws + 1 } := by
  simp only [hostRead, ha]

theorem hostRead_of_outside (ha : accessedReg s.params addr size = none) :
    hostRead host addr size s = .fault .undefinedAccess := by simp only [hostRead, ha]

theorem hostWrite_of_cmd (ha : accessedReg s.params addr size = some .cmd) :
    hostWrite addr size w s = .next (issue w s) := by simp only [hostWrite, ha]

theorem hostWrite_of_outside (ha : accessedReg s.params addr size = none) :
    hostWrite addr size w s = .fault .undefinedAccess := by simp only [hostWrite, ha]

end

/-! ### A write to CMD -/

theorem issue_of_idle {s : State} (h : s.pending = none) (w : Word) : issue w s = { s with pending := some w } := by
  simp only [issue, h]

/-- A command written while another is pending is discarded (20_memory.md R64). -/
theorem issue_of_busy {s : State} (h : s.pending ≠ none) (w : Word) : issue w s = { s with ovr := true } := by
  obtain ⟨v, hv⟩ := Option.ne_none_iff_exists'.1 h
  simp only [issue, hv]

theorem step_of_cmdWrite {s : State} {host : Nat} {w : Word}
    (hi : s.inputs.head? = some (.memWrite host (base s.params) 4 w)) : step s = .next (issue w s.popInput) :=
  (step_of_memWrite hi).trans (hostWrite_of_cmd ((accessedReg_eq_cmd _ _ _).2 ⟨rfl, rfl⟩))

/-- Settles O52: PENDING decides between the two. -/
theorem cmdWriteIsAcceptedOrDiscarded : Obligations.CmdWriteIsAcceptedOrDiscarded := by
  intro s host w hi
  rw [step_of_cmdWrite hi]
  exact ⟨fun hp => congrArg _ (issue_of_idle (s := s.popInput) hp w),
    fun hp => congrArg _ (issue_of_busy (s := s.popInput) hp w)⟩

/-! ### Where a step stops -/

/-- Executing a word, legal or not, always has a next state (60_exceptions.md R191). -/
theorem execWord_next (w : Word) (s : State) : ∃ t, execWord w s = .next t := by
  obtain ⟨_, t, -, -, h⟩ | ⟨_, -, h⟩ := execWord_cases w s
  · exact ⟨t, h⟩
  · exact ⟨_, h⟩

/-- The engine executes the pending word and completes it (70_reset_and_hazards.md R230). -/
theorem engineTurn_of_pending {s t : State} {w : Word} (hp : s.pending = some w) (hw : execWord w s = .next t) :
    engineTurn s = .next t.complete := by
  simp only [engineTurn, hp, hw, completeOutcome]

theorem engineTurn_of_idle {s : State} (hp : s.pending = none) : engineTurn s = .fault .noStep := by
  simp only [engineTurn, hp]

/-- In the engine's turn only an empty PENDING stops the machine (70_reset_and_hazards.md R230). -/
theorem step_engine_next_or_idle {s : State} (hn : s.engineNext) :
    (∃ t, step s = .next t) ∨ (step s = .fault .noStep ∧ s.pending = none) := by
  rw [step_of_engineNext s hn]
  cases hp : s.pending with
  | none => exact .inr ⟨engineTurn_of_idle (s := s.popInput) hp, rfl⟩
  | some w =>
    obtain ⟨t, ht⟩ := execWord_next w s.popInput
    exact .inl ⟨_, engineTurn_of_pending (s := s.popInput) hp ht⟩

/-- An access that reaches no register is no aligned word access of the window (20_memory.md R60, R66). -/
theorem not_window_of_accessedReg_eq_none {p : Params} {addr size : Nat} (ha : accessedReg p addr size = none) :
    ¬ (size = 4 ∧ ∃ off, off % 4 = 0 ∧ off ≤ 0x3C ∧ addr = base p + off) := by
  rintro ⟨rfl, off, h4, hoff, rfl⟩
  cases ha.symm.trans (accessedReg_offset p off hoff h4)

/-- A write that reaches a register has a next state, be it issued or ignored (20_memory.md R63, R64). -/
theorem hostWrite_next {s : State} {addr size : Nat} {r : WindowReg} (w : Word)
    (ha : accessedReg s.params addr size = some r) : ∃ t, hostWrite addr size w s = .next t := by
  by_cases hr : r = .cmd
  · exact ⟨_, hostWrite_of_cmd (hr ▸ ha)⟩
  · exact ⟨_, hostWrite_of_ne_cmd w ha hr⟩

/-- Settles O11, by the event that comes next: an access stops the machine exactly when it reaches no register. -/
theorem stepStopsOnlyWhenIdleOrOutsideTheInterface : Obligations.StepStopsOnlyWhenIdleOrOutsideTheInterface := by
  intro s
  have hengine : s.engineNext → (∃ t, step s = .next t) ∨ (step s = .fault .noStep ∧ s.engineNext ∧ s.pending = none) :=
    fun hn => (step_engine_next_or_idle hn).imp_right fun ⟨hs, hp⟩ => ⟨hs, hn, hp⟩
  cases hi : s.inputs.head? with
  | none => exact or_assoc.1 (.inl (hengine (.inl (List.head?_eq_none_iff.1 hi))))
  | some e =>
    cases e with
    | engine => exact or_assoc.1 (.inl (hengine (.inr hi)))
    | hwReset => exact .inl ⟨_, step_of_resetNext hi⟩
    | memRead host addr size =>
      rw [step_of_memRead hi]
      cases ha : accessedReg s.params addr size with
      | none => exact .inr (.inr ⟨hostRead_of_outside (s := s.popInput) ha, host, addr, size, 0#32, .inl rfl,
          not_window_of_accessedReg_eq_none ha⟩)
      | some r => exact .inl ⟨_, hostRead_of_inside (s := s.popInput) ha⟩
    | memWrite host addr size w =>
      rw [step_of_memWrite hi]
      cases ha : accessedReg s.params addr size with
      | none => exact .inr (.inr ⟨hostWrite_of_outside (s := s.popInput) ha, host, addr, size, w, .inr rfl,
          not_window_of_accessedReg_eq_none ha⟩)
      | some r => exact .inl (hostWrite_next (s := s.popInput) w ha)

/-! ### A command does not see the record of the hosts -/

theorem params_eq_of_block_eq {s t : State} (h : s.block = t.block) : s.params = t.params :=
  show s.block.params = t.block.params by rw [h]

theorem pending_eq_of_block_eq {s t : State} (h : s.block = t.block) : s.pending = t.pending :=
  show s.block.pending = t.block.pending by rw [h]

theorem complete_block (s : State) : s.complete.block = s.block.complete := rfl

theorem guardPhase_block (s : State) (op : Opcode) (body : State) :
    s.block.guardPhase op body.block = (s.guardPhase op body).block := by
  unfold State.guardPhase
  rw [apply_ite State.block]
  rfl

theorem correctCoarse_block (s : State) : correctCoarse s.block = (correctCoarse s).block := by
  unfold correctCoarse
  exact List.foldl_hom State.block fun _ _ => rfl

theorem assignMap_block (s : State) : assignMap s.block = (assignMap s).block := by
  unfold assignMap
  exact List.foldl_hom State.block fun _ _ => rfl

theorem averagePalette_block (s : State) : averagePalette s.block = (averagePalette s).block := by
  unfold averagePalette newPalette
  rfl

theorem selectFine_block (s : State) : selectFine s.block = (selectFine s).block := rfl

theorem buildPalette_block (s : State) : buildPalette s.block = (buildPalette s).block := by
  unfold buildPalette
  rw [selectFine_block, correctCoarse_block, averagePalette_block, assignMap_block]
  rfl

/-- A command guarded by its phase commutes with dropping the record of the hosts if its own effect does. -/
theorem next_guardPhase_block {s t body body' : State} {op : Opcode}
    (h : (.next (s.guardPhase op body) : Host.Outcome State Fault Refusal) = .next t) (hbody : body' = body.block) :
    (.next (s.block.guardPhase op body') : Host.Outcome State Fault Refusal) = .next t.block := by
  cases h
  rw [hbody, guardPhase_block]

theorem exec_block {i : Instr} {s t : State} (h : exec i s = .next t) : exec i s.block = .next t.block := by
  cases i with
  | nop | reset | lookup | rdcoarse | rdfine | rdmap | rdsel => exact next_guardPhase_block h rfl
  | config | observe | rdpal => exact next_guardPhase_block h (by rw [apply_ite State.block]; rfl)
  | build => exact next_guardPhase_block h (by rw [buildPalette_block, apply_ite State.block]; rfl)

theorem execWord_block {w : Word} {s t : State} (h : execWord w s = .next t) : execWord w s.block = .next t.block := by
  unfold execWord at h ⊢
  cases hd : decode w with
  | ok i =>
    rw [hd] at h
    exact exec_block h
  | error x =>
    rw [hd] at h
    cases h
    rfl

/-- The same word leaves the same block, if it finds the same block. -/
theorem execWord_block_congr {w : Word} {s s' t t' : State} (hb : s.block = s'.block) (h : execWord w s = .next t)
    (h' : execWord w s' = .next t') : t.block = t'.block := by
  have ht := execWord_block h
  rw [hb] at ht
  exact Host.Outcome.next.inj (ht.symm.trans (execWord_block h'))

/-! ### Reads before the engine's turn -/

theorem run_succ_of_step {s t : State} (h : step s = .next t) (k : Nat) : core.run (k + 1) s = core.run k t := by
  have hstep : core.step s = .next t := h
  simp only [Host.Core.run, hstep]

/-- A read of the window is taken off the events and changes nothing of the block (20_memory.md R63, R65). -/
theorem step_of_isRead {s : State} {e : BusEvent} (hi : s.inputs.head? = some e) (he : e.isRead s.params = true) :
    ∃ t, step s = .next t ∧ t.inputs = s.inputs.tail ∧ t.block = s.block := by
  cases e with
  | engine | hwReset | memWrite => cases he
  | memRead host addr size =>
    obtain ⟨r, ha⟩ := Option.isSome_iff_exists.1 he
    exact ⟨_, (step_of_memRead hi).trans (hostRead_of_inside (s := s.popInput) ha), rfl, rfl⟩

/-- Any number of reads leaves the block as it was (20_memory.md R63, R68). -/
theorem run_reads (s : State) (h : ∀ e ∈ s.inputs, e.isRead s.params = true) :
    ∃ t, t.inputs = [] ∧ t.block = s.block ∧ ∀ k, core.run (s.inputs.length + k) s = core.run k t := by
  induction hi : s.inputs generalizing s with
  | nil => exact ⟨s, hi, rfl, fun k => by rw [List.length_nil, Nat.zero_add]⟩
  | cons e es ih =>
    rw [hi] at h
    obtain ⟨u, hu, hes, hb⟩ := step_of_isRead (congrArg List.head? hi) (h e List.mem_cons_self)
    replace hes : u.inputs = es := hes.trans (congrArg List.tail hi)
    obtain ⟨t, ht, htb, hrun⟩ := ih u (fun e he => by rw [params_eq_of_block_eq hb]; exact h e (.tail _ (hes ▸ he))) hes
    refine ⟨t, ht, htb.trans hb, fun k => ?_⟩
    rw [List.length_cons, Nat.add_right_comm, run_succ_of_step hu, hrun]

/-- Settles O60: the reads leave the block that the engine's turn finds, and its execution sees nothing else. -/
theorem pendingCommandCompletesUndisturbedByReads : Obligations.PendingCommandCompletesUndisturbedByReads := by
  intro s w hp hreads
  obtain ⟨r, hr, hrb, hrun⟩ := run_reads s hreads
  obtain ⟨u, hu⟩ := execWord_next w s
  obtain ⟨v, hv⟩ := execWord_next w r.popInput
  have hpr : r.pending = some w := (pending_eq_of_block_eq hrb).trans hp
  have hstep : step r = .next v.complete :=
    (step_of_engineNext r (.inl hr)).trans (engineTurn_of_pending (s := r.popInput) hpr hv)
  have hvu : v.block = u.block := execWord_block_congr (s := r.popInput) hrb hv hu
  exact ⟨v.complete, u, (hrun 1).trans (run_succ_of_step hstep 0), hu, rfl,
    by rw [complete_block, hvu, complete_block]⟩

end Sys2Proof.Machine
end

section
/-! PROOFS. The encoding (30_encoding.md R81 to R88): decoding and encoding undo each other, the opcode map decides which
words are commands, operands are fields of the word, and every other word raises ERR_ILLEGAL and completes. -/

namespace Sys2Proof.Machine

open Sys2Proof.Laws

/-! ### Which words a row of the opcode map hits -/

theorem hits_iff (op : Opcode) (w : Word) : (rowOf op).hits w = true ↔ w &&& (rowOf op).mask = (rowOf op).pattern :=
  beq_iff_eq

/-- The bits `[start+len-1 : start]` are among those that the row's format marks 0 (30_encoding.md R81). -/
def MarksZero (op : Opcode) (start len : Nat) : Prop :=
  (rowOf op).mask.extractLsb' start len = BitVec.allOnes len ∧ (rowOf op).pattern.extractLsb' start len = 0#len

section
variable {op : Opcode} {w : Word}

/-- In a word that a row hits, the bits that its format marks 0 are 0 (30_encoding.md R83, R84). -/
theorem field_eq_zero_of_hits (h : (rowOf op).hits w = true) {start len : Nat} (hz : MarksZero op start len) :
    w.extractLsb' start len = 0#len := by
  obtain ⟨hmask, hpattern⟩ := hz
  have hfield := congrArg (BitVec.extractLsb' start len) ((hits_iff op w).1 h)
  rwa [BitVec.extractLsb'_and, hmask, BitVec.and_allOnes, hpattern] at hfield

theorem field_toNat_of_hits (h : (rowOf op).hits w = true) {start len : Nat} (hz : MarksZero op start len) :
    w.toNat / 2 ^ start % 2 ^ len = 0 := by
  rw [← toNat_extractLsb'_eq, field_eq_zero_of_hits h hz, BitVec.toNat_zero]

/-- A word that a row hits has the row's `OP` (30_encoding.md R80). -/
theorem op_toNat_of_hits (h : (rowOf op).hits w = true) : w.toNat / 2 ^ 28 = (opBits op).toNat := by
  have hw := w.isLt
  rw [← op_of_hits op w h, toNat_extractLsb'_eq]
  omega

end

/-! ### What a word decodes to -/

theorem rowOf_op (op : Opcode) : (rowOf op).op = op := by cases op <;> rfl

theorem op_operands (op : Opcode) (w : Word) : (operands op w).op = op := by cases op <;> rfl

/-- A word that decodes is hit by the row of its command (30_encoding.md R83, R86). -/
theorem hits_of_decode {w : Word} {i : Instr} (h : decode w = .ok i) :
    ∃ op, (rowOf op).hits w = true ∧ i = operands op w := by
  unfold decode at h
  split at h
  next r hr =>
    obtain ⟨op, -, rfl⟩ := List.mem_map.1 (List.mem_of_find?_eq_some hr)
    injection h with h
    exact ⟨op, List.find?_some (p := fun r : OpRow => r.hits w) hr, by rw [← h, rowOf_op]⟩
  next => cases h

/-- A word decodes to a command exactly if the command's row hits it and the command's operands are the word's
(30_encoding.md R82, R83, R86). -/
theorem decode_eq_ok_iff (w : Word) (i : Instr) :
    decode w = .ok i ↔ (rowOf i.op).hits w = true ∧ operands i.op w = i := by
  constructor
  · intro h
    obtain ⟨op, hhits, rfl⟩ := hits_of_decode h
    rw [op_operands]
    exact ⟨hhits, rfl⟩
  · rintro ⟨hhits, hi⟩
    rw [decode_of_hits i.op w hhits, hi]

/-- A word is a command of a row exactly if the row hits it (30_encoding.md R83). -/
theorem exists_decode_op_iff (w : Word) (op : Opcode) :
    (∃ i, decode w = .ok i ∧ i.op = op) ↔ w &&& (rowOf op).mask = (rowOf op).pattern := by
  rw [← hits_iff]
  constructor
  · rintro ⟨i, hi, rfl⟩
    exact ((decode_eq_ok_iff w i).1 hi).1
  · exact fun h => ⟨_, decode_of_hits op w h, op_operands op w⟩

/-- Settles O3, row by row. -/
theorem wordEncodesCommandExactlyWhenMaskMatches : Obligations.WordEncodesCommandExactlyWhenMaskMatches := fun w =>
  ⟨exists_decode_op_iff w .nop, exists_decode_op_iff w .reset, exists_decode_op_iff w .config,
    exists_decode_op_iff w .observe, exists_decode_op_iff w .build, exists_decode_op_iff w .lookup,
    exists_decode_op_iff w .rdcoarse, exists_decode_op_iff w .rdfine, exists_decode_op_iff w .rdmap,
    exists_decode_op_iff w .rdsel, exists_decode_op_iff w .rdpal⟩

/-! ### The two round trips -/

theorem fieldOfCode_fieldCode (f : BucketField) : fieldOfCode (fieldCode f) = f := by cases f <;> rfl

theorem fieldCode_fieldOfCode (c : BitVec 2) : fieldCode (fieldOfCode c) = c := by revert c; decide

/-- A command's word is hit by the command's own row (30_encoding.md R81, R83). -/
theorem hits_encode (i : Instr) : (rowOf i.op).hits (encode i) = true := by
  cases i with
  | nop => exact EncodesRow.nop
  | reset => exact EncodesRow.reset
  | config rw ro gw go bw bo => exact EncodesRow.config rw ro gw go bw bo
  | observe pix => exact EncodesRow.observe pix
  | build => exact EncodesRow.build
  | lookup pix => exact EncodesRow.lookup pix
  | rdcoarse idx fld => exact EncodesRow.rdcoarse idx fld
  | rdfine idx fld => exact EncodesRow.rdfine idx fld
  | rdmap idx => exact EncodesRow.rdmap idx
  | rdsel rank => exact EncodesRow.rdsel rank
  | rdpal idx => exact EncodesRow.rdpal idx

theorem extractLsb'_append_middle {l m n : Nat} {x : BitVec l} {y : BitVec m} {z : BitVec n} :
    (x ++ y ++ z).extractLsb' n m = y := by
  rw [BitVec.extractLsb'_append_eq_of_le le_rfl, Nat.sub_self, BitVec.extractLsb'_append_eq_right]

/-- The operands stand in a command's word where the decoder reads them (30_encoding.md R81, R82). -/
theorem operands_encode (i : Instr) : operands i.op (encode i) = i := by
  cases i with
  | nop | reset | build => rfl
  | config rw ro gw go bw bo =>
    simpa only [Instr.op, operands, encode, Instr.config.injEq, layoutOf, configLayout, Layout.mk.injEq, BitVec.toNat_inj]
      using layoutOf_configWord rw ro gw go bw bo
  | observe pix => exact congrArg Instr.observe BitVec.extractLsb'_append_eq_right
  | lookup pix => exact congrArg Instr.lookup BitVec.extractLsb'_append_eq_right
  | rdcoarse idx fld =>
    have hfld : (encode (.rdcoarse idx fld)).extractLsb' 12 2 = fieldCode fld :=
      (BitVec.extractLsb'_append_eq_of_le (by decide)).trans extractLsb'_append_middle
    exact congrArg₂ Instr.rdcoarse BitVec.extractLsb'_append_eq_right
      ((congrArg fieldOfCode hfld).trans (fieldOfCode_fieldCode fld))
  | rdfine idx fld =>
    exact congrArg₂ Instr.rdfine BitVec.extractLsb'_append_eq_right
      ((congrArg fieldOfCode extractLsb'_append_middle).trans (fieldOfCode_fieldCode fld))
  | rdmap idx => exact congrArg Instr.rdmap BitVec.extractLsb'_append_eq_right
  | rdsel rank => exact congrArg Instr.rdsel BitVec.extractLsb'_append_eq_right
  | rdpal idx => exact congrArg Instr.rdpal BitVec.extractLsb'_append_eq_right

theorem decode_encode (i : Instr) : decode (encode i) = .ok i :=
  (decode_eq_ok_iff _ i).2 ⟨hits_encode i, operands_encode i⟩

/-- Settles O1: the command's own row hits its word, and the operands are read back. -/
theorem decodeOfEncodeIsTheCommand : Obligations.DecodeOfEncodeIsTheCommand := decode_encode

/-- `OP`, the bits that the format marks 0, and the operands are the whole word (30_encoding.md R81). -/
theorem encode_operands {op : Opcode} {w : Word} (h : (rowOf op).hits w = true) : encode (operands op w) = w := by
  have hw := w.isLt
  have hop := op_toNat_of_hits h
  have zero (start len : Nat) (hz : MarksZero op start len) := field_toNat_of_hits h hz
  apply BitVec.eq_of_toNat_eq
  cases op <;> simp only [operands, encode, configWord_toNat, fieldCode_fieldOfCode, opBits, toNat_append_eq,
    toNat_extractLsb'_eq, BitVec.toNat_ofNat, Nat.zero_mod, Nat.zero_mul] at hop ⊢
  case nop | reset | build =>
    have hz := zero 0 28 ⟨rfl, rfl⟩
    omega
  case config =>
    have hz := zero 0 1 ⟨rfl, rfl⟩
    omega
  case observe | lookup =>
    have hz := zero 16 12 ⟨rfl, rfl⟩
    omega
  case rdcoarse =>
    have hz := zero 14 14 ⟨rfl, rfl⟩
    have hz' := zero 6 6 ⟨rfl, rfl⟩
    omega
  case rdfine =>
    have hz := zero 14 14 ⟨rfl, rfl⟩
    omega
  case rdmap =>
    have hz := zero 12 16 ⟨rfl, rfl⟩
    omega
  case rdsel =>
    have hz := zero 7 21 ⟨rfl, rfl⟩
    omega
  case rdpal =>
    have hz := zero 8 20 ⟨rfl, rfl⟩
    omega

/-- Settles O2: a row hits the word, which leaves only the operands to differ. -/
theorem encodeOfDecodedWordIsTheWord : Obligations.EncodeOfDecodedWordIsTheWord := by
  intro w i h
  obtain ⟨op, hhits, rfl⟩ := hits_of_decode h
  exact encode_operands hhits

/-- Settles O7: each word is the word of its command, and decoding undoes encoding. -/
theorem writtenOutWordsDecode : Obligations.WrittenOutWordsDecode :=
  ⟨decode_encode .nop, decode_encode .reset, decode_encode .build, decode_encode cfg565, decode_encode cfg666,
    decode_encode cfg332, decode_encode (.observe 0x1234#16), decode_encode (.lookup 2#16),
    decode_encode (.rdcoarse 6#6 .green), decode_encode (rdcountF 330#12), decode_encode (.rdmap 0xF00#12),
    decode_encode (.rdsel 127#7), decode_encode (.rdpal 191#8)⟩

/-! ### Operands as numbers -/

theorem operands_of_decode {w : Word} {i : Instr} (h : decode w = .ok i) : operands i.op w = i :=
  ((decode_eq_ok_iff w i).1 h).2

theorem low_field_toNat (w : Word) (len : Nat) : (w.extractLsb' 0 len).toNat = w.toNat % 2 ^ len := by
  rw [toNat_extractLsb'_eq, Nat.pow_zero, Nat.div_one]

/-- `FLD` counts off the bucket fields in their order (30_encoding.md R82). -/
theorem fieldOfCode_eq_getD (c : BitVec 2) :
    fieldOfCode c = [BucketField.count, .red, .green, .blue].getD c.toNat .count := by
  revert c; decide

theorem fld_eq_getD (w : Word) : fieldOfCode (w.extractLsb' 12 2) =
    [BucketField.count, .red, .green, .blue].getD (w.toNat / 4096 % 4) .count := by
  rw [fieldOfCode_eq_getD]
  exact congrArg (List.getD _ · _) (toNat_extractLsb'_eq w 12 2)

/-- Settles O4: in each format the decoder takes the operands from the word. -/
theorem operandsAreFieldsOfTheWord : Obligations.OperandsAreFieldsOfTheWord := by
  intro w i h
  have hi := operands_of_decode h
  refine ⟨?config, ?pixel, ?rdcoarse, ?rdfine, ?rdmap, ?rdsel, ?rdpal⟩
  case config =>
    rintro rw ro gw go bw bo rfl
    cases hi
    exact ⟨toNat_extractLsb'_eq w 24 4, toNat_extractLsb'_eq w 19 5, toNat_extractLsb'_eq w 15 4,
      toNat_extractLsb'_eq w 10 5, toNat_extractLsb'_eq w 6 4, toNat_extractLsb'_eq w 1 5⟩
  case pixel =>
    rintro pix (rfl | rfl) <;> cases hi <;> exact low_field_toNat w 16
  case rdcoarse =>
    rintro idx fld rfl
    cases hi
    exact ⟨low_field_toNat w 6, fld_eq_getD w⟩
  case rdfine =>
    rintro idx fld rfl
    cases hi
    exact ⟨low_field_toNat w 12, fld_eq_getD w⟩
  case rdmap =>
    rintro idx rfl
    cases hi
    exact low_field_toNat w 12
  case rdsel =>
    rintro rank rfl
    cases hi
    exact low_field_toNat w 7
  case rdpal =>
    rintro idx rfl
    cases hi
    exact low_field_toNat w 8

/-! ### Illegal words -/

theorem execWord_of_illegal {w : Word} {x : Illegal} (h : decode w = .error x) (s : State) :
    execWord w s = .next (s.raise .illegal) := by
  simp only [execWord, h]

/-- A word that no row hits raises ERR_ILLEGAL (30_encoding.md R84 to R86). -/
theorem execWord_of_no_hit {w : Word} (h : ∀ op, (rowOf op).hits w ≠ true) (s : State) :
    execWord w s = .next (s.raise .illegal) := by
  cases hd : decode w with
  | ok i =>
    obtain ⟨op, hhits, -⟩ := hits_of_decode hd
    exact absurd hhits (h op)
  | error x => exact execWord_of_illegal hd s

/-- A word with a row's `OP` and a 1 among the bits that the row's format marks 0 raises ERR_ILLEGAL (30_encoding.md
R84): its `OP` keeps every other row from hitting it. -/
theorem execWord_of_reserved (op : Opcode) {w : Word} {start len : Nat} (hz : MarksZero op start len)
    (hop : w.extractLsb' 28 4 = opBits op) (hne : w.extractLsb' start len ≠ 0#len) (s : State) :
    execWord w s = .next (s.raise .illegal) := by
  refine execWord_of_no_hit (fun op' hhits => ?_) s
  obtain rfl : op' = op := opBits_injective _ _ ((op_of_hits op' w hhits).symm.trans hop)
  exact hne (field_eq_zero_of_hits hhits hz)

/-- Settles O5, format by format. -/
theorem reservedBitsRaiseIllegal : Obligations.ReservedBitsRaiseIllegal := by
  rintro s w (⟨hop | hop | hop, hne⟩ | ⟨hop, hne⟩ | ⟨hop | hop, hne⟩ | ⟨hop, hne | hne⟩ | ⟨hop, hne⟩ | ⟨hop, hne⟩ |
    ⟨hop, hne⟩ | ⟨hop, hne⟩)
  · exact execWord_of_reserved .nop ⟨rfl, rfl⟩ hop hne s
  · exact execWord_of_reserved .reset ⟨rfl, rfl⟩ hop hne s
  · exact execWord_of_reserved .build ⟨rfl, rfl⟩ hop hne s
  · exact execWord_of_reserved .config ⟨rfl, rfl⟩ hop hne s
  · exact execWord_of_reserved .observe ⟨rfl, rfl⟩ hop hne s
  · exact execWord_of_reserved .lookup ⟨rfl, rfl⟩ hop hne s
  · exact execWord_of_reserved .rdcoarse ⟨rfl, rfl⟩ hop hne s
  · exact execWord_of_reserved .rdcoarse ⟨rfl, rfl⟩ hop hne s
  · exact execWord_of_reserved .rdfine ⟨rfl, rfl⟩ hop hne s
  · exact execWord_of_reserved .rdmap ⟨rfl, rfl⟩ hop hne s
  · exact execWord_of_reserved .rdsel ⟨rfl, rfl⟩ hop hne s
  · exact execWord_of_reserved .rdpal ⟨rfl, rfl⟩ hop hne s

theorem opBits_lt (op : Opcode) : (opBits op).toNat < 0xB := by cases op <;> decide

/-- Settles O6: every row's `OP` is below 0xB. -/
theorem reservedOpcodeRaisesIllegal : Obligations.ReservedOpcodeRaisesIllegal := by
  intro s w hw
  refine execWord_of_no_hit (fun op hhits => ?_) s
  have hlt := opBits_lt op
  rw [← op_toNat_of_hits hhits] at hlt
  exact absurd hlt (Nat.not_lt.2 hw)

/-- Settles O10: the engine's turn executes the word and completes it. -/
theorem engineStepRejectsAnIllegalWord : Obligations.EngineStepRejectsAnIllegalWord := by
  intro s w x hn hp hd
  rw [step_of_engineNext s hn]
  exact engineTurn_of_pending (s := s.popInput) hp (execWord_of_illegal hd s.popInput)

end Sys2Proof.Machine
end

section
/-! PROOFS. The accumulator (41_accumulator.md R100 to R108): RESET, OBSERVE below and at the pixel limit, and that the
order of OBSERVEs does not matter. -/

namespace Sys2Proof.Machine

/-! ### RESET -/

/-- RESET is allowed in every phase (41_accumulator.md R100, 60_exceptions.md R203). -/
theorem exec_reset_eq (s : State) : exec .reset s = .next (resetImage s) :=
  congrArg Host.Outcome.next (guardPhase_of_permitted (op := .reset) rfl (resetImage s))

/-- Settles O13: the grids and the map read as replaced, and the record update is RESET's frame. -/
theorem resetClearsTheImage : Obligations.ResetClearsTheImage := fun s =>
  ⟨resetImage s, exec_reset_eq s, resetImage_coarseAt s, resetImage_fineAt s, resetImage_mapAt s, rfl⟩

/-! ### OBSERVE -/

/-- OBSERVE changes no more than the grids, TOTAL and LASTERR (41_accumulator.md R105). -/
theorem observePixel_frame (p : Pixel) (s : State) : observePixel p s =
    { s with coarse := (observePixel p s).coarse, fine := (observePixel p s).fine, total := s.total + 1#32,
             lastErr := .ok } := rfl

/-- Settles O14: the pixel's two buckets have it added, and every other bucket reads as before. -/
theorem observeAddsThePixelToItsTwoBuckets : Obligations.ObserveAddsThePixelToItsTwoBuckets := by
  intro s pix hp ht
  have hcoarse : (observePixel pix s).coarseAt (coarseKey pix) = (s.coarseAt (coarseKey pix)).add pix := by
    rw [observePixel_coarseAt, if_pos rfl]
  have hfine : (observePixel pix s).fineAt (fineKey pix) = (s.fineAt (fineKey pix)).add pix := by
    rw [observePixel_fineAt, if_pos rfl]
  refine ⟨_, exec_observe_eq pix hp ht, ?_⟩
  rw [hcoarse, hfine]
  exact ⟨rfl, rfl, rfl, rfl, rfl, rfl, rfl, rfl, fun k hk => by rw [observePixel_coarseAt, if_neg hk],
    fun k hk => by rw [observePixel_fineAt, if_neg hk], observePixel_frame pix s⟩

/-- At the pixel limit an OBSERVE in ACCUM raises ERR_OVERFLOW (41_accumulator.md R108). -/
theorem exec_observe_eq_raise {s : State} (pix : Pixel) (hp : s.phase = .accum) (ht : s.total = 0xFFFFFFFF#32) :
    exec (.observe pix) s = .next (s.raise .overflow) := by
  have hperm : permitted .observe s.phase = true := by rw [hp]; rfl
  simp only [exec, execObserve, guardPhase_of_permitted hperm, if_pos ht]

/-- Settles O15: raising the error is the whole effect. -/
theorem observeIsRefusedAtThePixelLimit : Obligations.ObserveIsRefusedAtThePixelLimit :=
  fun _ pix hp ht => exec_observe_eq_raise pix hp ht

/-! ### The order of OBSERVEs -/

/-- A bucket does not tell in which order two pixels were added to it. -/
theorem Bucket.add_add_swap (b : Bucket) (p q : Pixel) : (b.add p).add q = (b.add q).add p := by
  simp only [Bucket.add, Bucket.mk.injEq, true_and]
  exact ⟨add_right_comm .., add_right_comm .., add_right_comm ..⟩

/-- Two pixels may be observed in either order: each bucket gets the same ones (41_accumulator.md R106). -/
theorem observePixel_comm (p q : Pixel) (s : State) :
    observePixel p (observePixel q s) = observePixel q (observePixel p s) := by
  have hcoarse : (observePixel p (observePixel q s)).coarse = (observePixel q (observePixel p s)).coarse := by
    refine coarse_ext fun k => ?_
    simp only [observePixel_coarseAt]
    split_ifs
    · exact Bucket.add_add_swap ..
    all_goals rfl
  have hfine : (observePixel p (observePixel q s)).fine = (observePixel q (observePixel p s)).fine := by
    refine fine_ext fun k => ?_
    simp only [observePixel_fineAt]
    split_ifs
    · exact Bucket.add_add_swap ..
    all_goals rfl
  rw [observePixel_frame p (observePixel q s), hcoarse, hfine]
  rfl

/-- The effect of a sequence of OBSERVEs that all succeed (41_accumulator.md R106). -/
def observeAll (ps : List Pixel) (s : State) : State := ps.foldl (fun t p => observePixel p t) s

@[simp] theorem observeAll_nil (s : State) : observeAll [] s = s := rfl

@[simp] theorem observeAll_cons (p : Pixel) (ps : List Pixel) (s : State) :
    observeAll (p :: ps) s = observeAll ps (observePixel p s) := rfl

theorem observeAll_perm {ps qs : List Pixel} (h : ps.Perm qs) (s : State) : observeAll ps s = observeAll qs s :=
  h.foldl_eq (rcomm := ⟨fun t p q => observePixel_comm q p t⟩) s

theorem observeAll_phase (ps : List Pixel) (s : State) : (observeAll ps s).phase = s.phase := by
  induction ps generalizing s with
  | nil => rfl
  | cons p ps ih => rw [observeAll_cons, ih, observePixel_phase]

theorem observeAll_total_toNat {ps : List Pixel} {s : State} (hroom : s.total.toNat + ps.length ≤ 0xFFFFFFFF) :
    (observeAll ps s).total.toNat = s.total.toNat + ps.length := by
  induction ps generalizing s with
  | nil => rfl
  | cons p ps ih =>
    rw [List.length_cons] at hroom ⊢
    have htotal := observePixel_total_toNat (s := s) (by omega) p
    rw [observeAll_cons, ih (by omega)]
    omega

/-- Where TOTAL has room for all the pixels, every OBSERVE succeeds (41_accumulator.md R105, R108). -/
theorem execAll_observe_eq {ps : List Pixel} {s : State} (hp : s.phase = .accum)
    (hroom : s.total.toNat + ps.length ≤ 0xFFFFFFFF) : execAll (ps.map Instr.observe) s = .next (observeAll ps s) := by
  induction ps generalizing s with
  | nil => rfl
  | cons p ps ih =>
    rw [List.length_cons] at hroom
    have hne : s.total ≠ 0xFFFFFFFF#32 := by bv_omega
    have htotal := observePixel_total_toNat (toNat_lt_of_ne_limit hne) p
    rw [List.map_cons, execAll, exec_observe_eq p hp hne]
    exact ih hp (by omega)

/-- Settles O19: all the OBSERVEs succeed, and their effects may be reordered. -/
theorem observeOrderDoesNotMatter : Obligations.ObserveOrderDoesNotMatter := by
  intro s ps qs hperm hp hroom
  have hps := execAll_observe_eq hp hroom
  have hqs := execAll_observe_eq hp (hperm.length_eq ▸ hroom)
  exact ⟨by rw [hps, hqs, observeAll_perm hperm], _, hps, (observeAll_phase ps s).trans hp, observeAll_total_toNat hroom⟩

end Sys2Proof.Machine
end

section
/-! PROOFS. Averaging and packing (42_palette_builder.md R128, R131, R132): the range of the means, and the three fields of
a packed colour under a legal layout. -/

namespace Sys2Proof.Machine

/-! ### Averages -/

theorem mean_zero (sum : Nat) : mean sum 0 = 0 := rfl

theorem mean_of_ne_zero (sum : Nat) {count : Nat} (h : count ≠ 0) : mean sum count = sum / count := if_neg h

/-- A sum of `count` values up to `m` has a mean up to `m` (42_palette_builder.md R128). -/
theorem mean_le {sum count m : Nat} (h : sum ≤ m * count) : mean sum count ≤ m := by
  unfold mean
  split
  · exact Nat.zero_le m
  · exact Nat.div_le_of_le_mul (h.trans_eq (Nat.mul_comm m count))

theorem avg_of_count_eq_zero {b : Bucket} (h : b.count = 0#32) : b.avg = (0, 0, 0) := by
  have hcount : b.count.toNat = 0 := congrArg BitVec.toNat h
  simp only [Bucket.avg, hcount, mean_zero]

theorem avg_of_count_ne_zero {b : Bucket} (h : b.count ≠ 0#32) :
    b.avg = (b.rSum.toNat / b.count.toNat, b.gSum.toNat / b.count.toNat, b.bSum.toNat / b.count.toNat) := by
  have hcount : b.count.toNat ≠ 0 := fun e => h (BitVec.eq_of_toNat_eq e)
  simp only [Bucket.avg, mean_of_ne_zero _ hcount]

/-- The average of a bucket, written out (42_palette_builder.md R128). -/
theorem avg_eq_ite (b : Bucket) : b.avg = if b.count = 0#32 then (0, 0, 0) else
    (b.rSum.toNat / b.count.toNat, b.gSum.toNat / b.count.toNat, b.bSum.toNat / b.count.toNat) := by
  split
  · exact avg_of_count_eq_zero ‹_›
  · exact avg_of_count_ne_zero ‹_›

theorem Bucket.Bounded.avg_le {b : Bucket} (h : b.Bounded) : b.avg.1 ≤ 31 ∧ b.avg.2.1 ≤ 63 ∧ b.avg.2.2 ≤ 31 :=
  ⟨mean_le h.red, mean_le h.green, mean_le h.blue⟩

/-- Settles O36: the two cases of the count, and the bounds of the sums. -/
theorem averagesAreInTheChannelRanges : Obligations.AveragesAreInTheChannelRanges := fun _ =>
  ⟨avg_of_count_eq_zero, avg_of_count_ne_zero, Bucket.Bounded.avg_le⟩

/-! ### Legal layouts -/

theorem apart_iff (o w o' w' : Nat) : apart o w o' w' = true ↔ o + w ≤ o' ∨ o' + w' ≤ o := by
  simp only [apart, Bool.or_eq_true, decide_eq_true_eq]

/-- In a legal layout every field ends inside the entry (44_control_and_readback.md R163). -/
theorem Layout.fits_of_legal {l : Layout} {n : Nat} (h : l.legal n = true) :
    l.ro + l.rw ≤ n ∧ l.go + l.gw ≤ n ∧ l.bo + l.bw ≤ n := by
  simp only [Layout.legal, Bool.and_eq_true, decide_eq_true_eq, and_assoc] at h
  omega

/-- In a legal layout no two fields share a bit (44_control_and_readback.md R163). -/
theorem Layout.disjoint_of_legal {l : Layout} {n : Nat} (h : l.legal n = true) :
    (l.ro + l.rw ≤ l.go ∨ l.go + l.gw ≤ l.ro) ∧ (l.ro + l.rw ≤ l.bo ∨ l.bo + l.bw ≤ l.ro) ∧
      (l.go + l.gw ≤ l.bo ∨ l.bo + l.bw ≤ l.go) := by
  simp only [Layout.legal, Bool.and_eq_true, apart_iff] at h
  exact and_assoc.1 h.2

/-! ### Conversion and placing -/

/-- Widening multiplies, narrowing divides (42_palette_builder.md R132). -/
theorem conv_eq (v s w : Nat) : conv v s w = if s ≤ w then v * 2 ^ (w - s) else v / 2 ^ (s - w) := by
  simp only [conv, Nat.shiftLeft_eq, Nat.shiftRight_eq_div_pow]

/-- A converted mean fits its field (42_palette_builder.md R132). -/
theorem conv_lt {v s : Nat} (h : v < 2 ^ s) (w : Nat) : conv v s w < 2 ^ w := by
  rw [conv_eq]
  split
  · calc v * 2 ^ (w - s) < 2 ^ s * 2 ^ (w - s) := Nat.mul_lt_mul_of_pos_right h (Nat.two_pow_pos _)
      _ = 2 ^ w := by rw [← Nat.pow_add, Nat.add_sub_cancel' ‹s ≤ w›]
  · refine Nat.div_lt_of_lt_mul (h.trans_eq ?_)
    rw [← Nat.pow_add, Nat.sub_add_cancel (Nat.le_of_not_ge ‹¬ s ≤ w›)]

theorem conv_zero (s w : Nat) : conv 0 s w = 0 := by
  simp only [conv, Nat.zero_shiftLeft, Nat.zero_shiftRight, ite_self]

theorem shiftLeft_lt_two_pow {x o w n : Nat} (hx : x < 2 ^ w) (h : o + w ≤ n) : x <<< o < 2 ^ n :=
  (Nat.shiftLeft_lt hx).trans_le (Nat.pow_le_pow_right (Nat.zero_lt_two) (Nat.add_comm w o ▸ h))

/-- A number placed in a field is read back from it. -/
theorem field_shiftLeft_same {x w : Nat} (hx : x < 2 ^ w) (o : Nat) : x <<< o / 2 ^ o % 2 ^ w = x := by
  rw [Nat.shiftLeft_eq, Nat.mul_div_cancel x (Nat.two_pow_pos o), Nat.mod_eq_of_lt hx]

/-- A field holds nothing of a number placed in another field that shares no bit with it. -/
theorem field_shiftLeft_other {x o w o' w' : Nat} (hx : x < 2 ^ w') (h : o + w ≤ o' ∨ o' + w' ≤ o) :
    x <<< o' / 2 ^ o % 2 ^ w = 0 := by
  obtain hbelow | habove := h
  · have hsplit : x <<< o' = x * 2 ^ (o' - o - w) * 2 ^ w * 2 ^ o := by
      rw [Nat.shiftLeft_eq, Nat.mul_assoc, Nat.mul_assoc, ← Nat.pow_add, ← Nat.pow_add]
      congr 2
      omega
    rw [hsplit, Nat.mul_div_cancel _ (Nat.two_pow_pos o), Nat.mul_mod_left]
  · rw [Nat.div_eq_of_lt (shiftLeft_lt_two_pow hx habove), Nat.zero_mod]

/-! ### Packing -/

section
variable {l : Layout} {n ar ag ab : Nat} (h : l.legal n = true) (hr : ar < 2 ^ 5) (hg : ag < 2 ^ 6) (hb : ab < 2 ^ 5)
include h hr hg hb

/-- A packed colour stays inside the entry (42_palette_builder.md R131). -/
theorem Layout.pack_lt : l.pack (ar, ag, ab) < 2 ^ n := by
  obtain ⟨hrn, hgn, hbn⟩ := Layout.fits_of_legal h
  exact Nat.or_lt_two_pow
    (Nat.or_lt_two_pow (shiftLeft_lt_two_pow (conv_lt hr l.rw) hrn) (shiftLeft_lt_two_pow (conv_lt hg l.gw) hgn))
    (shiftLeft_lt_two_pow (conv_lt hb l.bw) hbn)

/-- Each field of a packed colour holds its converted mean (42_palette_builder.md R131). -/
theorem Layout.pack_fields : l.pack (ar, ag, ab) / 2 ^ l.ro % 2 ^ l.rw = conv ar 5 l.rw ∧
    l.pack (ar, ag, ab) / 2 ^ l.go % 2 ^ l.gw = conv ag 6 l.gw ∧
    l.pack (ar, ag, ab) / 2 ^ l.bo % 2 ^ l.bw = conv ab 5 l.bw := by
  obtain ⟨hrg, hrb, hgb⟩ := Layout.disjoint_of_legal h
  have hr' := conv_lt hr l.rw
  have hg' := conv_lt hg l.gw
  have hb' := conv_lt hb l.bw
  simp only [Layout.pack, Nat.or_div_two_pow, Nat.or_mod_two_pow]
  refine ⟨?_, ?_, ?_⟩
  · rw [field_shiftLeft_same hr', field_shiftLeft_other hg' hrg, field_shiftLeft_other hb' hrb, Nat.or_zero,
      Nat.or_zero]
  · rw [field_shiftLeft_other hr' hrg.symm, field_shiftLeft_same hg', field_shiftLeft_other hb' hgb, Nat.zero_or,
      Nat.or_zero]
  · rw [field_shiftLeft_other hr' hrb.symm, field_shiftLeft_other hg' hgb.symm, field_shiftLeft_same hb', Nat.or_zero,
      Nat.zero_or]

end

/-- Black packs to 0 (42_palette_builder.md R132). -/
theorem Layout.pack_zero (l : Layout) : l.pack (0, 0, 0) = 0 := by
  simp only [Layout.pack, conv_zero, Nat.zero_shiftLeft, Nat.or_zero]

/-- Settles O35: a legal layout's fields are disjoint and inside the entry, and each converted mean fits its own. -/
theorem packPlacesEachChannelInItsField : Obligations.PackPlacesEachChannelInItsField := by
  intro l n ar ag ab h hr hg hb
  simp only [← conv_eq]
  exact ⟨Layout.pack_lt h hr hg hb, Layout.pack_zero l, Layout.pack_fields h hr hg hb⟩

/-- A bucket within its bounds has its exact packed average as its palette entry (42_palette_builder.md R131). -/
theorem paletteColour_toNat {l : Layout} {p : PalW} {b : Bucket} (h : l.legal p.bits = true) (hb : b.Bounded) :
    (paletteColour p.bits l b).toNat = l.pack b.avg := by
  obtain ⟨hr, hg, hbl⟩ := hb.avg_le
  have hlt : l.pack b.avg < 2 ^ p.bits :=
    Layout.pack_lt h (Nat.lt_succ_of_le hr) (Nat.lt_succ_of_le hg) (Nat.lt_succ_of_le hbl)
  rw [paletteColour, palWord, Nat.mod_eq_of_lt hlt, BitVec.toNat_ofNat,
    Nat.mod_eq_of_lt (hlt.trans_le (Nat.pow_le_pow_right Nat.zero_lt_two p.le_thirtyTwo))]

end Sys2Proof.Machine
end

section
/-! PROOFS. BUILD (42_palette_builder.md R120 to R137): what it selects, corrects, packs and maps, what it leaves, and
what its result depends on. -/

namespace Sys2Proof.Machine

/-! ### When BUILD is refused -/

/-- In ACCUM without an accepted configuration BUILD raises ERR_NOCFG (42_palette_builder.md R121). -/
theorem exec_build_eq_raise {s : State} (hp : s.phase = .accum) (hc : s.cfgValid = false) :
    exec .build s = .next (s.raise .noCfg) := by
  have hperm : permitted .build s.phase = true := by rw [hp]; rfl
  have hne : ¬ s.cfgValid = true := by rw [hc]; exact Bool.false_ne_true
  simp only [exec, execBuild, guardPhase_of_permitted hperm, if_neg hne]

/-- Settles O26: raising the error is the whole effect, and the invariant has the legal layout. -/
theorem buildNeedsAnAcceptedConfiguration : Obligations.BuildNeedsAnAcceptedConfiguration := fun _ =>
  ⟨exec_build_eq_raise, State.Inv.config_legal⟩

/-! ### The selection -/

/-- The selection order, its counts compared as words. -/
theorem precedes_iff_count (s : State) (a b : FineKey) : s.precedes a b ↔
    (s.fineAt b).count.toNat < (s.fineAt a).count.toNat ∨
      ((s.fineAt a).count = (s.fineAt b).count ∧ a.toNat < b.toNat) := by
  simp only [State.precedes, BitVec.toNat_inj]

/-- Settles O20: the selection is the start of the sorted fine keys. -/
theorem buildSelectsTheMostPopulatedBuckets : Obligations.BuildSelectsTheMostPopulatedBuckets := by
  intro s hp hc
  refine ⟨_, exec_build_eq hp hc, buildPalette_selAt_inj s, ?_⟩
  simp only [← precedes_iff_count, buildPalette_selAt]
  exact ⟨selAt_selectFine_sorted s, fun r k hk => selectFine_first s r k ((not_selected_iff _ k).2 hk)⟩

/-! ### The corrected coarse grid -/

/-- Settles O21: what the ranks take from a coarse field is a part of it, so it is exactly what is missing after. -/
theorem buildSubtractsSelectedBucketsFromTheirParents : Obligations.BuildSubtractsSelectedBucketsFromTheirParents := by
  intro s h hp hc
  refine ⟨_, exec_build_eq hp hc, fun c f => ?_⟩
  simp only [buildPalette_selAt]
  rw [coarse_value_split (h.accum hp), takenBy_ranks, buildPalette_coarse_value (h.accum hp), Nat.add_comm]
  rfl

/-! ### The palette and the map -/

/-- The palette index of a rank (42_palette_builder.md R130). -/
theorem rankIndex_eq (r : Rank) : 64#8 + r.setWidth 8 = BitVec.ofNat 8 (64 + r.toNat) := by
  rw [BitVec.ofNat_add, BitVec.ofNat_toNat]

theorem buildPalette_palAt_coarse (s : State) (c : CoarseKey) : (buildPalette s).palAt c.toNat =
    paletteColour s.params.palW.bits (layoutOf s.packcfg) ((buildPalette s).coarseAt c) := by
  have hc : c.toNat < 64 := c.isLt
  rw [buildPalette_palAt s _ (by omega), if_pos hc, BitVec.ofNat_toNat, BitVec.setWidth_eq]

theorem buildPalette_palAt_rank (s : State) (r : Rank) : (buildPalette s).palAt (64 + r.toNat) =
    paletteColour s.params.palW.bits (layoutOf s.packcfg) (s.fineAt ((buildPalette s).selAt r)) := by
  have hr : r.toNat < 128 := r.isLt
  rw [buildPalette_palAt s _ (by omega), if_neg (by omega), Nat.add_sub_cancel_left, BitVec.ofNat_toNat,
    BitVec.setWidth_eq]

/-- Settles O22: the invariant bounds all buckets and has a legal layout, so that each colour is packed exactly. -/
theorem buildPacksTheAverages : Obligations.BuildPacksTheAverages := by
  intro s h hp hc
  have hlegal := h.config_legal hc
  obtain ⟨hfine, -⟩ := h.bounded (by rw [hp]; decide)
  have hcoarse := buildPalette_coarse_bounded (h.accum hp) hfine
  refine ⟨_, exec_build_eq hp hc, fun c => ?_, fun r => ⟨?_, ?_⟩⟩
  · rw [buildPalette_palAt_coarse, paletteColour_toNat hlegal (hcoarse c), avg_eq_ite]
  · rw [buildPalette_palAt_rank, paletteColour_toNat hlegal (hfine _), avg_eq_ite]
  · rw [buildPalette_mapAt_selAt, rankIndex_eq]
    rfl

/-- In BUILT the assigned map entries are the selected keys' (10_state.md R45). -/
theorem State.BuiltInv.mapAt_v {s : State} (h : s.BuiltInv) (k : FineKey) : (s.mapAt k).v = s.selected k := by
  cases hk : s.selected k with
  | true =>
    obtain ⟨r, rfl⟩ := (selected_iff s k).1 hk
    rw [h.map_selected]
  | false => rw [h.map_unselected k hk]

/-- Settles O24: the assigned entries are those of the 128 distinct selected keys. -/
theorem buildAssignsExactly128Entries : Obligations.BuildAssignsExactly128Entries := by
  intro s h hp hc
  have hbuilt := buildPalette_builtInv (h.accum hp)
  have hassigned : (sumFine fun k => if (buildPalette s).selected k = true then 1 else 0) = 128 :=
    (sumRanks_selAt _ hbuilt.sel_distinct fun _ => 1).symm.trans (sumRanks_const 1)
  have hall := (sumFine_split (buildPalette s).selected fun _ => 1).symm.trans (sumFine_const 1)
  have hrest : (sumFine fun k => if (buildPalette s).selected k = true then 0 else 1) =
      sumFine fun k => if (buildPalette s).selected k = false then 1 else 0 := by
    simp only [← Bool.not_eq_true, ite_not]
  refine ⟨_, exec_build_eq hp hc, ?_⟩
  simp only [hbuilt.mapAt_v]
  omega

/-! ### The frame -/

/-- Settles O23, from the frame of BUILD's effect. -/
theorem buildLeavesTheFineGridAndTheRest : Obligations.BuildLeavesTheFineGridAndTheRest := by
  intro s hp hc
  refine ⟨_, exec_build_eq hp hc, buildPalette_mapAt_other s, ?_⟩
  rw [buildPalette_frame]

/-! ### What the result depends on -/

theorem bucket_ext_value {b d : Bucket} (h : ∀ f, b.value f = d.value f) : b = d := by
  obtain ⟨count, rSum, gSum, bSum⟩ := b
  obtain ⟨count', rSum', gSum', bSum'⟩ := d
  simp only [Bucket.mk.injEq, ← BitVec.toNat_inj]
  exact ⟨h .count, h .red, h .green, h .blue⟩

/-- Two palettes that read the same are the same. -/
theorem pal_ext {s t : State} (h : ∀ i < 192, s.palAt i = t.palAt i) : s.pal = t.pal := by
  refine Vector.ext fun i hi => ?_
  rw [← palAt_of_lt s i hi, ← palAt_of_lt t i hi]
  exact h i hi

section
variable {s s' : State} (hfine : s.fine = s'.fine)
include hfine

theorem buildPalette_sel_congr : (buildPalette s).sel = (buildPalette s').sel := by
  rw [buildPalette_sel, buildPalette_sel, hfine]

/-- The corrected coarse grid is the unselected fine buckets' (42_palette_builder.md R127). -/
theorem buildPalette_coarse_congr (hacc : s.AccumInv) (hacc' : s'.AccumInv) :
    (buildPalette s).coarse = (buildPalette s').coarse := by
  refine coarse_ext fun c => bucket_ext_value fun f => ?_
  simp only [buildPalette_coarse_value hacc, buildPalette_coarse_value hacc',
    selected_congr (buildPalette_sel_congr hfine), fineAt_congr hfine]

/-- The map is the selection's (42_palette_builder.md R130). -/
theorem buildPalette_map_congr (hacc : s.AccumInv) (hacc' : s'.AccumInv) :
    (buildPalette s).map = (buildPalette s').map := by
  have hsel := buildPalette_sel_congr hfine
  refine map_ext fun k => ?_
  cases hk : (buildPalette s).selected k with
  | true =>
    obtain ⟨r, rfl⟩ := (selected_iff _ k).1 hk
    rw [buildPalette_mapAt_selAt, selAt_congr hsel, buildPalette_mapAt_selAt]
  | false =>
    rw [(buildPalette_builtInv hacc).map_unselected k hk,
      (buildPalette_builtInv hacc').map_unselected k ((selected_congr hsel k).symm.trans hk)]

/-- The palette is the averages of the corrected coarse grid and of the selected fine buckets, in the layout
(42_palette_builder.md R129, R130). -/
theorem buildPalette_pal_congr (hcoarse : (buildPalette s).coarse = (buildPalette s').coarse)
    (hcfg : s.packcfg = s'.packcfg) (hpal : s.params.palW = s'.params.palW) :
    (buildPalette s).pal = (buildPalette s').pal := by
  refine pal_ext fun i hi => ?_
  rw [buildPalette_palAt s i hi, buildPalette_palAt s' i hi, hcfg, hpal, coarseAt_congr hcoarse, fineAt_congr hfine,
    selAt_congr (buildPalette_sel_congr hfine)]

end

/-- Settles O27: F determines the selection, the map and, under the invariant, the corrected C; with the layout these
determine the palette. -/
theorem buildIsAFunctionOfTheGridsAndTheLayout : Obligations.BuildIsAFunctionOfTheGridsAndTheLayout := by
  intro s s' h h' hp hp' hc hc' hfine _ hcfg hpal
  have hacc := h.accum hp
  have hacc' := h'.accum hp'
  have hcoarse := buildPalette_coarse_congr hfine hacc hacc'
  exact ⟨_, _, exec_build_eq hp hc, exec_build_eq hp' hc', buildPalette_sel_congr hfine,
    buildPalette_pal_congr hfine hcoarse hcfg hpal, buildPalette_map_congr hfine hacc hacc', hcoarse⟩

end Sys2Proof.Machine
end

section
/-! PROOFS. LOOKUP (43_index_query.md R150 to R153): the index it answers with, and that it leaves all but RESULT and
LASTERR. -/

namespace Sys2Proof.Machine

/-! ### The palette index -/

theorem paletteIndex_of_assigned {s : State} {p : Pixel} (h : (s.mapAt (fineKey p)).v = true) :
    paletteIndex s p = (s.mapAt (fineKey p)).idx := if_pos h

theorem paletteIndex_of_unassigned {s : State} {p : Pixel} (h : (s.mapAt (fineKey p)).v = false) :
    paletteIndex s p = (coarseKey p).setWidth 8 := if_neg (by rw [h]; exact Bool.false_ne_true)

/-- An entry that BUILD assigned for a rank sends its pixels to that rank's palette entry (42_palette_builder.md R130,
43_index_query.md R150). -/
theorem paletteIndex_toNat_of_rank {s : State} {p : Pixel} {r : Rank}
    (h : s.mapAt (fineKey p) = MapEntry.assigned (64#8 + r.setWidth 8)) : (paletteIndex s p).toNat = 64 + r.toNat := by
  have hr : r.toNat < 128 := r.isLt
  rw [paletteIndex_of_assigned (by rw [h]; rfl), h, rankIndex_eq]
  exact Nat.mod_eq_of_lt (by omega)

theorem State.BuiltInv.paletteIndex_of_selected {s : State} {p : Pixel} {r : Rank} (h : s.BuiltInv)
    (hr : s.selAt r = fineKey p) : (paletteIndex s p).toNat = 64 + r.toNat :=
  paletteIndex_toNat_of_rank (hr ▸ h.map_selected r)

theorem State.BuiltInv.paletteIndex_of_unselected {s : State} {p : Pixel} (h : s.BuiltInv)
    (hp : ∀ r, s.selAt r ≠ fineKey p) : (paletteIndex s p).toNat = (coarseKey p).toNat := by
  have hmap := h.map_unselected _ ((not_selected_iff _ _).2 hp)
  rw [paletteIndex_of_unassigned (by rw [hmap]), BitVec.toNat_setWidth_of_le (by decide)]

/-! ### What one LOOKUP does -/

/-- In BUILT a LOOKUP answers with the pixel's palette index (43_index_query.md R150). -/
theorem exec_lookup_eq {s : State} (p : Pixel) (hp : s.phase = .built) :
    exec (.lookup p) s = .next (s.answer ((paletteIndex s p).setWidth 64)) := by
  have hperm : permitted .lookup s.phase = true := by rw [hp]; rfl
  simp only [exec, execLookup, guardPhase_of_permitted hperm]

/-- RESULT holds the index as a number. -/
theorem answer_index_toNat (s : State) (p : Pixel) :
    (s.answer ((paletteIndex s p).setWidth 64)).result.toNat = (paletteIndex s p).toNat :=
  BitVec.toNat_setWidth_of_le (by decide)

/-- Settles O29: the two cases of the map entry. -/
theorem lookupAnswersWithTheMapOrTheCoarseKey : Obligations.LookupAnswersWithTheMapOrTheCoarseKey := by
  intro s p hp
  refine ⟨fun hv => ?_, fun hv => ?_⟩
  · rw [exec_lookup_eq p hp, paletteIndex_of_assigned hv]
    rfl
  · rw [exec_lookup_eq p hp, paletteIndex_of_unassigned hv, BitVec.setWidth_setWidth (by decide)]
    rfl

/-- Settles O30: a selected key's index is from 64 up and a coarse key is below 64, so the value tells the two cases
apart. -/
theorem lookupIsTotalAndInRange : Obligations.LookupIsTotalAndInRange := by
  intro s p h hp
  have hbuilt := h.built hp
  refine ⟨_, exec_lookup_eq p hp, rfl, ?_⟩
  rw [answer_index_toNat]
  by_cases hsel : ∃ r, s.selAt r = fineKey p
  · obtain ⟨r, hr⟩ := hsel
    have hindex := hbuilt.paletteIndex_of_selected hr
    have hlt : r.toNat < 128 := r.isLt
    exact ⟨by omega, iff_of_true (by omega) ⟨r, hr⟩, fun _ => hbuilt.paletteIndex_of_selected,
      hbuilt.paletteIndex_of_unselected⟩
  · have hindex := hbuilt.paletteIndex_of_unselected (not_exists.1 hsel)
    have hlt : (coarseKey p).toNat < 64 := (coarseKey p).isLt
    exact ⟨by omega, iff_of_false (by omega) hsel, fun _ => hbuilt.paletteIndex_of_selected, fun _ => hindex⟩

/-! ### Sequences of LOOKUPs -/

/-- An earlier answer does not change a LOOKUP (43_index_query.md R152). -/
theorem exec_lookup_answer {s : State} (p : Pixel) (hp : s.phase = .built) (v : BitVec 64) :
    exec (.lookup p) (s.answer v) = exec (.lookup p) s := by
  rw [exec_lookup_eq p hp, exec_lookup_eq p (s := s.answer v) hp]
  rfl

/-- LOOKUPs before the last one have no effect on what it leaves (43_index_query.md R152). -/
theorem execAll_lookups_eq {s : State} (ps : List Pixel) (p : Pixel) (hp : s.phase = .built) :
    execAll ((ps ++ [p]).map Instr.lookup) s = exec (.lookup p) s := by
  induction ps generalizing s with
  | nil =>
    rw [List.nil_append, List.map_singleton, execAll, exec_lookup_eq p hp]
    rfl
  | cons q ps ih =>
    rw [List.cons_append, List.map_cons, execAll, exec_lookup_eq q hp]
    exact (ih (s := s.answer _) hp).trans (exec_lookup_answer p hp _)

/-- Settles O31: the sequence does what its last LOOKUP does alone, which is to answer. -/
theorem lookupsDoNotDisturbOneAnother : Obligations.LookupsDoNotDisturbOneAnother := by
  intro s ps p hp
  have hlast := exec_lookup_eq p hp
  exact ⟨_, _, (execAll_lookups_eq ps p hp).trans hlast, hlast, rfl, rfl⟩

/-! ### Empty selected buckets -/

/-- An empty bucket's palette entry is the zero colour, whatever the layout (42_palette_builder.md R136). -/
theorem paletteColour_of_empty {b : Bucket} (h : b.count = 0#32) (n : Nat) (l : Layout) : paletteColour n l b = 0#32 := by
  rw [paletteColour, avg_of_count_eq_zero h, Layout.pack_zero, palWord, Nat.zero_mod]

/-- An empty bucket precedes no bucket that has pixels (42_palette_builder.md R122). -/
theorem not_precedes_of_empty {s : State} {a b : FineKey} (ha : (s.fineAt a).count = 0#32)
    (hb : (s.fineAt b).count ≠ 0#32) : ¬ s.precedes a b := by
  unfold State.precedes
  bv_omega

/-- BUILD selects an empty bucket only after all that have pixels (42_palette_builder.md R136). -/
theorem buildPalette_selects_nonempty {s : State} {r : Rank} (hr : (s.fineAt ((buildPalette s).selAt r)).count = 0#32)
    {k : FineKey} (hk : (s.fineAt k).count ≠ 0#32) : ∃ r', (buildPalette s).selAt r' = k := by
  rw [← selected_iff]
  by_contra hout
  rw [Bool.not_eq_true, buildPalette_selected] at hout
  rw [buildPalette_selAt] at hr
  exact not_precedes_of_empty hr hk (selectFine_first s r k hout)

/-- Settles O28: the selection order puts the empty bucket last, its mean packs to 0, and its map entry is its rank's. -/
theorem emptySelectedBucketsAreBlackAndLookedUp : Obligations.EmptySelectedBucketsAreBlackAndLookedUp := by
  intro s hp hc
  refine ⟨_, exec_build_eq hp hc, fun r hempty => ⟨fun _ => buildPalette_selects_nonempty hempty, ?_, fun p hkey => ?_⟩⟩
  · rw [buildPalette_palAt_rank, paletteColour_of_empty hempty]
  · refine ⟨_, exec_lookup_eq p (buildPalette_phase s), BitVec.eq_of_toNat_eq ?_⟩
    have hr : r.toNat < 128 := r.isLt
    rw [answer_index_toNat, paletteIndex_toNat_of_rank (hkey ▸ buildPalette_mapAt_selAt s r), BitVec.toNat_ofNat,
      Nat.mod_eq_of_lt (by omega)]

end Sys2Proof.Machine
end

section
/-! PROOFS. The control and read-back commands (44_control_and_readback.md R160 to R169): NOP, the layouts that CONFIG
accepts and how a legal one tiles the palette entry, and the read-backs' answers. -/

namespace Sys2Proof.Machine

/-! ### NOP -/

/-- Settles O12: NOP is allowed in every phase, and succeeding is its whole effect. -/
theorem nopClearsOnlyTheLastError : Obligations.NopClearsOnlyTheLastError := fun s =>
  congrArg Host.Outcome.next (guardPhase_of_permitted (op := .nop) rfl s.succeed)

/-! ### Legal layouts -/

/-- Non-empty bit ranges are apart exactly if no bit lies in both (44_control_and_readback.md R163): where both start
below the other's end, the later start lies in both. -/
theorem apart_iff_disjoint {w w' : Nat} (o o' : Nat) (hw : 1 ≤ w) (hw' : 1 ≤ w') :
    apart o w o' w' = true ↔ ∀ b, ¬ (o ≤ b ∧ b < o + w ∧ o' ≤ b ∧ b < o' + w') := by
  rw [apart_iff]
  refine ⟨fun h b => by omega, fun h => ?_⟩
  have := h (max o o')
  omega

/-- The four conditions of a legal layout as numbers (44_control_and_readback.md R163). -/
theorem Layout.legal_iff (l : Layout) (n : Nat) : l.legal n = true ↔
    (1 ≤ l.rw ∧ 1 ≤ l.gw ∧ 1 ≤ l.bw) ∧ l.rw + l.gw + l.bw = n ∧ (l.ro + l.rw ≤ n ∧ l.go + l.gw ≤ n ∧ l.bo + l.bw ≤ n) ∧
    apart l.ro l.rw l.go l.gw = true ∧ apart l.ro l.rw l.bo l.bw = true ∧ apart l.go l.gw l.bo l.bw = true := by
  simp only [Layout.legal, Bool.and_eq_true, decide_eq_true_eq, and_assoc]

/-- The four conditions, with disjointness said bit by bit (44_control_and_readback.md R163). -/
theorem Layout.legal_iff_disjoint (l : Layout) (n : Nat) : l.legal n = true ↔
    (1 ≤ l.rw ∧ 1 ≤ l.gw ∧ 1 ≤ l.bw) ∧ l.rw + l.gw + l.bw = n ∧ (l.ro + l.rw ≤ n ∧ l.go + l.gw ≤ n ∧ l.bo + l.bw ≤ n) ∧
    (∀ b, ¬ (l.ro ≤ b ∧ b < l.ro + l.rw ∧ l.go ≤ b ∧ b < l.go + l.gw)) ∧
    (∀ b, ¬ (l.ro ≤ b ∧ b < l.ro + l.rw ∧ l.bo ≤ b ∧ b < l.bo + l.bw)) ∧
    (∀ b, ¬ (l.go ≤ b ∧ b < l.go + l.gw ∧ l.bo ≤ b ∧ b < l.bo + l.bw)) := by
  rw [Layout.legal_iff]
  refine and_congr_right fun ⟨hr, hg, hb⟩ => ?_
  rw [apart_iff_disjoint _ _ hr hg, apart_iff_disjoint _ _ hr hb, apart_iff_disjoint _ _ hg hb]

/-- Settles O34: three disjoint fields inside the entry, as wide together as the entry, leave none of its bits out. -/
theorem legalLayoutTilesTheEntry : Obligations.LegalLayoutTilesTheEntry := by
  intro l n b h
  have hdisjoint := Layout.disjoint_of_legal h
  obtain ⟨-, hsum, hfits, -⟩ := (Layout.legal_iff l n).1 h
  omega

/-! ### CONFIG -/

section
variable {s : State} {rw : BitVec 4} {ro : BitVec 5} {gw : BitVec 4} {go : BitVec 5} {bw : BitVec 4} {bo : BitVec 5}

/-- CONFIG is allowed in every phase, and its layout decides (44_control_and_readback.md R162). -/
theorem exec_config_eq_ite : exec (.config rw ro gw go bw bo) s =
    .next (if (configLayout rw ro gw go bw bo).legal s.params.palW.bits then
      acceptConfig (configWord rw ro gw go bw bo) s else s.raise .badCfg) :=
  congrArg Host.Outcome.next (guardPhase_of_permitted (op := .config) rfl _)

theorem exec_config_of_legal (h : (configLayout rw ro gw go bw bo).legal s.params.palW.bits = true) :
    exec (.config rw ro gw go bw bo) s = .next (acceptConfig (configWord rw ro gw go bw bo) s) := by
  rw [exec_config_eq_ite, if_pos h]

theorem exec_config_of_illegal (h : ¬ (configLayout rw ro gw go bw bo).legal s.params.palW.bits = true) :
    exec (.config rw ro gw go bw bo) s = .next (s.raise .badCfg) := by
  rw [exec_config_eq_ite, if_neg h]

end

/-- Settles O32: the statement's conditions are those of the operands' layout. -/
theorem configAcceptsExactlyTheLegalLayouts : Obligations.ConfigAcceptsExactlyTheLegalLayouts := by
  intro s rw ro gw go bw bo legal hlegal
  have hiff : legal ↔ (configLayout rw ro gw go bw bo).legal s.params.palW.bits = true :=
    hlegal.trans (Layout.legal_iff_disjoint (configLayout rw ro gw go bw bo) _).symm
  exact ⟨fun h => exec_config_of_legal (hiff.1 h), fun h => exec_config_of_illegal (mt hiff.2 h)⟩

/-! ### The read-backs' answers -/

/-- Every answering command is allowed where it answers (60_exceptions.md R203). -/
theorem Answers.permitted {s : State} {v : BitVec 64} {i : Instr} (h : Answers s v i) : permitted i.op s.phase = true := by
  cases i with
  | nop | reset | config | observe | build => exact h.elim
  | rdcoarse | rdfine | rdmap => exact bne_iff_ne.2 h.1
  | lookup | rdsel | rdpal => exact beq_iff_eq.2 h.1

/-- A command that answers leaves its answer in RESULT and clears LASTERR (10_state.md R31). -/
theorem Answers.exec_eq {s : State} {v : BitVec 64} {i : Instr} (h : Answers s v i) : exec i s = .next (s.answer v) := by
  have hperm := h.permitted
  cases i with
  | nop | reset | config | observe | build => exact h.elim
  | lookup | rdcoarse | rdfine | rdmap | rdsel =>
    obtain ⟨-, rfl⟩ := h
    exact congrArg Host.Outcome.next (guardPhase_of_permitted hperm _)
  | rdpal x =>
    obtain ⟨-, hx, rfl⟩ := h
    refine congrArg Host.Outcome.next ((guardPhase_of_permitted hperm _).trans (if_neg ?_))
    omega

/-! ### Buckets -/

/-- A field answers as its exact number: 64 bits hold a count and a sum (44_control_and_readback.md R164). -/
theorem Bucket.field_toNat (b : Bucket) (f : BucketField) : (b.field f).toNat = b.value f := by
  cases f <;> exact BitVec.toNat_setWidth_of_le (by decide)

/-- Settles O37, in the coarse and in the fine grid. -/
theorem bucketReadsAnswerWithTheField : Obligations.BucketReadsAnswerWithTheField := by
  intro s c k f hp
  refine ⟨_, _, Answers.exec_eq (i := .rdcoarse c f) ⟨hp, rfl⟩, Answers.exec_eq (i := .rdfine k f) ⟨hp, rfl⟩, ?_, ?_⟩
  · exact (Bucket.field_toNat _ f).trans (by cases f <;> rfl)
  · exact (Bucket.field_toNat _ f).trans (by cases f <;> rfl)

/-! ### The map, the selection and the palette -/

/-- `{V, IDX}` as a number (44_control_and_readback.md R167). -/
theorem MapEntry.bits_toNat (e : MapEntry) : e.bits.toNat = (if e.v = true then 256 else 0) + e.idx.toNat := by
  rw [MapEntry.bits, toNat_append_eq]
  cases e.v <;> rfl

/-- Settles O38: the answer is the entry's nine bits, zero-extended. -/
theorem mapReadAnswersWithTheEntry : Obligations.MapReadAnswersWithTheEntry := fun s k hp =>
  ⟨(s.mapAt k).bits.setWidth 64, Answers.exec_eq (i := .rdmap k) ⟨hp, rfl⟩,
    (BitVec.toNat_setWidth_of_le (by decide)).trans (MapEntry.bits_toNat _)⟩

/-- Settles O39: the answer is the key, zero-extended. -/
theorem selectionReadAnswersWithTheKey : Obligations.SelectionReadAnswersWithTheKey := fun s r hp =>
  ⟨(s.selAt r).setWidth 64, Answers.exec_eq (i := .rdsel r) ⟨hp, rfl⟩, BitVec.toNat_setWidth_of_le (by decide)⟩

/-- In BUILT an index from 192 up raises ERR_RANGE (44_control_and_readback.md R169). -/
theorem exec_rdpal_eq_raise {s : State} {i : BitVec 8} (hp : s.phase = .built) (hi : 192 ≤ i.toNat) :
    exec (.rdpal i) s = .next (s.raise .range) := by
  have hperm : permitted .rdpal s.phase = true := beq_iff_eq.2 hp
  exact congrArg Host.Outcome.next ((guardPhase_of_permitted hperm _).trans (if_pos hi))

/-- Settles O40: below 192 the answer is the entry, zero-extended; from 192 up raising the error is the whole effect. -/
theorem paletteReadAnswersOrRaisesRange : Obligations.PaletteReadAnswersOrRaisesRange := by
  refine fun s i hp => ⟨fun hi => ⟨(s.palAt i.toNat).setWidth 64, ?_, ?_⟩, fun hi => exec_rdpal_eq_raise hp hi⟩
  · exact Answers.exec_eq (i := .rdpal i) ⟨hp, hi, rfl⟩
  · rw [BitVec.toNat_setWidth_of_le (by decide), palAt_of_lt s _ hi]

end Sys2Proof.Machine
end

section
/-! PROOFS. Which error a word ends in, and that an error changes nothing else (60_exceptions.md R190 to R192, R203). -/

namespace Sys2Proof.Machine

/-! ### The command's own check -/

/-- The error that a command's own check finds once its phase is allowed (60_exceptions.md R190, R191):
ERR_BADCFG of CONFIG, ERR_NOCFG of BUILD, ERR_OVERFLOW of OBSERVE, ERR_RANGE of RDPAL, and none of the others. -/
def ownError (s : State) : Instr → ErrCode
  | .config rw ro gw go bw bo => if (configLayout rw ro gw go bw bo).legal s.params.palW.bits then .ok else .badCfg
  | .build => if s.cfgValid then .ok else .noCfg
  | .observe _ => if s.total = 0xFFFFFFFF#32 then .overflow else .ok
  | .rdpal idx => if 192 ≤ idx.toNat then .range else .ok
  | .nop | .reset | .lookup _ | .rdcoarse _ _ | .rdfine _ _ | .rdmap _ | .rdsel _ => .ok

theorem ownError_ne_phase (s : State) (i : Instr) : ownError s i ≠ .phase := by
  cases i with
  | config | build | observe | rdpal => simp only [ownError]; split <;> decide
  | nop | reset | lookup | rdcoarse | rdfine | rdmap | rdsel => exact nofun

/-- Every command is a phase check before a body, and the body ends in what the command's own check finds
(60_exceptions.md R191). -/
theorem exec_eq_guardPhase (i : Instr) (s : State) :
    ∃ body, exec i s = .next (s.guardPhase i.op body) ∧ body.lastErr = ownError s i := by
  cases i with
  | nop | reset | lookup | rdcoarse | rdfine | rdmap | rdsel => exact ⟨_, rfl, rfl⟩
  | config | observe | rdpal => exact ⟨_, rfl, apply_ite State.lastErr _ _ _⟩
  | build => exact ⟨_, rfl, (apply_ite State.lastErr _ _ _).trans (by rw [buildPalette_lastErr]; rfl)⟩

/-- A command forbidden in the phase only raises ERR_PHASE (60_exceptions.md R203). -/
theorem exec_of_not_permitted {i : Instr} {s : State} (h : permitted i.op s.phase = false) :
    exec i s = .next (s.raise .phase) := by
  obtain ⟨body, he, -⟩ := exec_eq_guardPhase i s
  rw [he, guardPhase_of_not_permitted h]

/-- A command allowed in the phase ends in what its own check finds (60_exceptions.md R191). -/
theorem exec_of_permitted {i : Instr} {s : State} (h : permitted i.op s.phase = true) :
    ∃ t, exec i s = .next t ∧ t.lastErr = ownError s i := by
  obtain ⟨body, he, hbody⟩ := exec_eq_guardPhase i s
  exact ⟨body, by rw [he, guardPhase_of_permitted h], hbody⟩

/-! ### The phase table -/

theorem Phase.uninit_or_built_iff (p : Phase) : (p = .uninit ∨ p = .built) ↔ (p == .accum) = false := by
  cases p <;> decide

theorem Phase.uninit_or_accum_iff (p : Phase) : (p = .uninit ∨ p = .accum) ↔ (p == .built) = false := by
  cases p <;> decide

theorem Phase.eq_uninit_iff (p : Phase) : p = .uninit ↔ (p != .uninit) = false := bne_eq_false_iff_eq.symm

/-- Settles O41: the table says where `permitted` is false, there ERR_PHASE is raised, and no command's own check finds
ERR_PHASE. -/
theorem phaseTableIsEnforced : Obligations.PhaseTableIsEnforced := by
  intro s i forbidden htable
  have hforbidden : forbidden ↔ permitted i.op s.phase = false := by
    refine htable.trans ?_
    cases i with
    | nop | reset | config => exact ⟨False.elim, nofun⟩
    | observe | build => exact s.phase.uninit_or_built_iff
    | lookup | rdsel | rdpal => exact s.phase.uninit_or_accum_iff
    | rdcoarse | rdfine | rdmap => exact s.phase.eq_uninit_iff
  refine ⟨fun hf => exec_of_not_permitted (hforbidden.1 hf), fun hf => ?_⟩
  have hperm : permitted i.op s.phase = true := Bool.eq_true_of_not_eq_false (mt hforbidden.2 hf)
  obtain ⟨t, he, ht⟩ := exec_of_permitted hperm
  exact ⟨t, he, ht ▸ ownError_ne_phase s i⟩

/-! ### The order of the checks, and the frame of an error -/

/-- A command is checked for its phase before its own check (60_exceptions.md R191). -/
theorem exec_lastErr (i : Instr) (s : State) : ∃ t, exec i s = .next t ∧
    t.lastErr = if permitted i.op s.phase = false then .phase else ownError s i := by
  cases hperm : permitted i.op s.phase with
  | false => exact ⟨_, exec_of_not_permitted hperm, rfl⟩
  | true => exact exec_of_permitted hperm

/-- Settles O42: decoding comes first, then the phase check, then the command's own check. -/
theorem errorsAreCheckedInTheFixedOrder : Obligations.ErrorsAreCheckedInTheFixedOrder := by
  intro s w
  cases hd : decode w with
  | error x => exact ⟨_, execWord_of_illegal hd s, rfl⟩
  | ok i =>
    obtain ⟨t, he, ht⟩ := exec_lastErr i s
    refine ⟨t, by rw [← he]; simp only [execWord, hd], ht.trans ?_⟩
    cases i <;> rfl

/-- Settles O43: an illegal word only raises its error, and a command raises its error or succeeds, which
clears LASTERR. -/
theorem errorsChangeNothingElse : Obligations.ErrorsChangeNothingElse := by
  intro s t w h hne
  obtain ⟨i, u, -, he, hw⟩ | ⟨x, -, hw⟩ := execWord_cases w s <;> cases hw.symm.trans h
  · obtain ⟨e, -, rfl⟩ | hs := raise_or_succeeds he
    · rfl
    · exact absurd hs.lastErr_eq hne
  · rfl

end Sys2Proof.Machine
end

section
/-! PROOFS. The engine's step on a command that decodes (70_reset_and_hazards.md R230). -/

namespace Sys2Proof.Machine

/-- Settles O9: no command is refused, and the engine completes whatever state the command leaves. -/
theorem engineStepExecutesThePendingCommand : Obligations.EngineStepExecutesThePendingCommand := by
  intro s w i hn hp hd
  have hruns : s.runs i := ⟨hn, w, hp, hd⟩
  obtain ⟨t, he⟩ := exec_next i s.popInput
  exact ⟨t, he, step_of_runs hruns he⟩

end Sys2Proof.Machine
end
